-- ==== Sys2Proof/Word.lean ====
section
/-! DEFINITION. The widths of the machine's values (00_scope.md R6) and the plainest arithmetic on them. -/

namespace Sys2Proof

/-- An 8-bit value: a register, a timer, a memory cell, an immediate `kk` (R6, R81). -/
abbrev Byte := BitVec 8

/-- A 16-bit value: an instruction word, `pc`, `I`, a stack slot (R6, R80). -/
abbrev Word := BitVec 16

/-- A general-register number, 0 to 15; also a key index (R22, R30). -/
abbrev RegIx := Fin 16

end Sys2Proof
end

