-- ==== Sys2Proof/Syntax.lean ====
section
/-! DEFINITION. The instructions: one constructor per row of spec/opcode_table.json, in the table's order,
with the operand fields of its format (30_encoding.md R81, R82, R86). -/

namespace Sys2Proof

/-- One instruction. `x` and `y` are register numbers, `kk` an immediate byte, `nnn` an immediate address,
`n` a row count (R81). SHR and SHL keep the `y` field that they ignore (R83), and `unmatched` keeps the
whole word (R88), so that no bit of an encoding is dropped (log entry 7). -/
inductive Instr where
  /-- CLS, `00E0` (R191) -/
  | cls
  /-- RET, `00EE` (R121) -/
  | ret
  /-- JP, `1nnn` (R122) -/
  | jp (nnn : BitVec 12)
  /-- CALL, `2nnn` (R123) -/
  | call (nnn : BitVec 12)
  /-- SE_KK, `3xkk` (R125) -/
  | seKk (x : RegIx) (kk : Byte)
  /-- SNE_KK, `4xkk` (R126) -/
  | sneKk (x : RegIx) (kk : Byte)
  /-- SE_R, `5xy0` (R127) -/
  | seR (x y : RegIx)
  /-- LD_KK, `6xkk` (R141) -/
  | ldKk (x : RegIx) (kk : Byte)
  /-- ADD_KK, `7xkk` (R142) -/
  | addKk (x : RegIx) (kk : Byte)
  /-- LD_R, `8xy0` (R143) -/
  | ldR (x y : RegIx)
  /-- OR, `8xy1` (R144) -/
  | or (x y : RegIx)
  /-- AND, `8xy2` (R145) -/
  | and (x y : RegIx)
  /-- XOR, `8xy3` (R146) -/
  | xor (x y : RegIx)
  /-- ADD_R, `8xy4` (R147) -/
  | addR (x y : RegIx)
  /-- SUB, `8xy5` (R148) -/
  | sub (x y : RegIx)
  /-- SHR, `8xy6` (R149) -/
  | shr (x y : RegIx)
  /-- SUBN, `8xy7` (R150) -/
  | subn (x y : RegIx)
  /-- SHL, `8xyE` (R151) -/
  | shl (x y : RegIx)
  /-- SNE_R, `9xy0` (R128) -/
  | sneR (x y : RegIx)
  /-- LD_I, `Annn` (R171) -/
  | ldI (nnn : BitVec 12)
  /-- JP_V0, `Bnnn` (R124) -/
  | jpV0 (nnn : BitVec 12)
  /-- RND, `Cxkk` (R160) -/
  | rnd (x : RegIx) (kk : Byte)
  /-- DRW, `Dxyn` (R192) -/
  | drw (x y : RegIx) (n : Fin 16)
  /-- SKP, `Ex9E` (R201) -/
  | skp (x : RegIx)
  /-- SKNP, `ExA1` (R202) -/
  | sknp (x : RegIx)
  /-- LD_VX_DT, `Fx07` (R204) -/
  | ldVxDt (x : RegIx)
  /-- LD_VX_K, `Fx0A` (R203) -/
  | ldVxK (x : RegIx)
  /-- LD_DT_VX, `Fx15` (R205) -/
  | ldDtVx (x : RegIx)
  /-- LD_ST_VX, `Fx18` (R206) -/
  | ldStVx (x : RegIx)
  /-- ADD_I_VX, `Fx1E` (R172) -/
  | addIVx (x : RegIx)
  /-- LD_F_VX, `Fx29` (R173) -/
  | ldFVx (x : RegIx)
  /-- LD_B_VX, `Fx33` (R174) -/
  | ldBVx (x : RegIx)
  /-- LD_MEM_VX, `Fx55` (R175) -/
  | ldMemVx (x : RegIx)
  /-- LD_VX_MEM, `Fx65` (R176) -/
  | ldVxMem (x : RegIx)
  /-- UNMATCHED, every word that matches no other row (R88, R110) -/
  | unmatched (op : Word)
  deriving DecidableEq, Repr

end Sys2Proof
end

