-- ==== Sys2Proof/WellFormed.lean ====
section
/-! DEFINITION. Which terms of `Instr` are instructions of the machine. Register numbers, row counts,
immediates and addresses are held to their width by their types; the one check left is that `unmatched`
carries a word that no row of the opcode table matches (30_encoding.md R88). -/

namespace Sys2Proof

/-- The unmatched words, family by family, exactly as 30_encoding.md R88 lists them. The decoder is written
from R81, R85 and R86; that the two agree is a statement of its own. -/
def isUnmatchedWord (op : Word) : Bool :=
  match op.toNat / 4096 with
  | 0 => op ≠ 0x00E0 && op ≠ 0x00EE
  | 5 => op.toNat % 16 ≠ 0
  | 8 => op.toNat % 16 ∈ [0x8, 0x9, 0xA, 0xB, 0xC, 0xD, 0xF]
  | 9 => op.toNat % 16 ≠ 0
  | 14 => op.toNat % 256 ∉ [0x9E, 0xA1]
  | 15 => op.toNat % 256 ∉ [0x07, 0x0A, 0x15, 0x18, 0x1E, 0x29, 0x33, 0x55, 0x65]
  | _ => false

/-- An instruction the machine has: every term but an `unmatched` that carries a matched word. -/
def Instr.wellFormed : Instr → Bool
  | .cls => true
  | .ret => true
  | .jp _ => true
  | .call _ => true
  | .seKk _ _ => true
  | .sneKk _ _ => true
  | .seR _ _ => true
  | .ldKk _ _ => true
  | .addKk _ _ => true
  | .ldR _ _ => true
  | .or _ _ => true
  | .and _ _ => true
  | .xor _ _ => true
  | .addR _ _ => true
  | .sub _ _ => true
  | .shr _ _ => true
  | .subn _ _ => true
  | .shl _ _ => true
  | .sneR _ _ => true
  | .ldI _ => true
  | .jpV0 _ => true
  | .rnd _ _ => true
  | .drw _ _ _ => true
  | .skp _ => true
  | .sknp _ => true
  | .ldVxDt _ => true
  | .ldVxK _ => true
  | .ldDtVx _ => true
  | .ldStVx _ => true
  | .addIVx _ => true
  | .ldFVx _ => true
  | .ldBVx _ => true
  | .ldMemVx _ => true
  | .ldVxMem _ => true
  | .unmatched op => isUnmatchedWord op

end Sys2Proof
end

