-- ==== Sys2Proof/Decode.lean ====
section
/-! DEFINITION. The decoder: the fields of an instruction word (30_encoding.md R81), the dispatch on them
(R84, R85), the byte order of a fetched word (20_memory.md R52); after it the encoder, written from the
formats of R82, and the mask and match table of R86 against which the decoder is stated to be right. -/

namespace Sys2Proof

/-! ### Bytes of a word (20_memory.md R52: big-endian) -/

/-- The word whose byte at the lower address is `hi` and at the higher address `lo` (R52). -/
def wordOfBytes (hi lo : Byte) : Word := BitVec.ofNat 16 (hi.toNat * 256 + lo.toNat)

/-- The byte of a word that stands at the lower address (R52). -/
def highByte (op : Word) : Byte := op.extractLsb' 8 8

/-- The byte of a word that stands at the higher address (R52). -/
def lowByte (op : Word) : Byte := op.extractLsb' 0 8

/-! ### Fields (R81) -/

/-- `n1 = op[15:12]`, the family selector. -/
def opN1 (op : Word) : Fin 16 := (op.extractLsb' 12 4).toFin

/-- `x = n2 = op[11:8]`. -/
def opX (op : Word) : RegIx := (op.extractLsb' 8 4).toFin

/-- `y = n3 = op[7:4]`. -/
def opY (op : Word) : RegIx := (op.extractLsb' 4 4).toFin

/-- `n = n4 = op[3:0]`. -/
def opN (op : Word) : Fin 16 := (op.extractLsb' 0 4).toFin

/-- `kk = op[7:0]`. -/
def opKk (op : Word) : Byte := op.extractLsb' 0 8

/-- `nnn = op[11:0]`. -/
def opNnn (op : Word) : BitVec 12 := op.extractLsb' 0 12

/-! ### Dispatch (R84, R85) -/

/-- Family 0: the whole word selects; every other `0nnn` is unmatched (R85). -/
def decodeFamily0 (op : Word) : Instr :=
  if op = 0x00E0 then .cls else if op = 0x00EE then .ret else .unmatched op

/-- Family 8: `n4` selects (R85). -/
def decodeFamily8 (op : Word) : Instr :=
  match (opN op).val with
  | 0x0 => .ldR (opX op) (opY op)
  | 0x1 => .or (opX op) (opY op)
  | 0x2 => .and (opX op) (opY op)
  | 0x3 => .xor (opX op) (opY op)
  | 0x4 => .addR (opX op) (opY op)
  | 0x5 => .sub (opX op) (opY op)
  | 0x6 => .shr (opX op) (opY op)
  | 0x7 => .subn (opX op) (opY op)
  | 0xE => .shl (opX op) (opY op)
  | _ => .unmatched op

/-- Family E: the low byte selects (R85). -/
def decodeFamilyE (op : Word) : Instr :=
  match (opKk op).toNat with
  | 0x9E => .skp (opX op)
  | 0xA1 => .sknp (opX op)
  | _ => .unmatched op

/-- Family F: the low byte selects (R85). -/
def decodeFamilyF (op : Word) : Instr :=
  match (opKk op).toNat with
  | 0x07 => .ldVxDt (opX op)
  | 0x0A => .ldVxK (opX op)
  | 0x15 => .ldDtVx (opX op)
  | 0x18 => .ldStVx (opX op)
  | 0x1E => .addIVx (opX op)
  | 0x29 => .ldFVx (opX op)
  | 0x33 => .ldBVx (opX op)
  | 0x55 => .ldMemVx (opX op)
  | 0x65 => .ldVxMem (opX op)
  | _ => .unmatched op

/-- The instruction a word stands for: a total function of the word alone, with no invalid verdict
(R84, R89, 40_cycle.md R104). -/
def decode (op : Word) : Instr :=
  match (opN1 op).val with
  | 0x0 => decodeFamily0 op
  | 0x1 => .jp (opNnn op)
  | 0x2 => .call (opNnn op)
  | 0x3 => .seKk (opX op) (opKk op)
  | 0x4 => .sneKk (opX op) (opKk op)
  | 0x5 => if (opN op).val = 0 then .seR (opX op) (opY op) else .unmatched op
  | 0x6 => .ldKk (opX op) (opKk op)
  | 0x7 => .addKk (opX op) (opKk op)
  | 0x8 => decodeFamily8 op
  | 0x9 => if (opN op).val = 0 then .sneR (opX op) (opY op) else .unmatched op
  | 0xA => .ldI (opNnn op)
  | 0xB => .jpV0 (opNnn op)
  | 0xC => .rnd (opX op) (opKk op)
  | 0xD => .drw (opX op) (opY op) (opN op)
  | 0xE => decodeFamilyE op
  | _ => decodeFamilyF op

/-- Why a byte sequence has no instruction at its front. No word is invalid (R89). -/
inductive DecodeError where
  /-- fewer than the two bytes every instruction takes (R80, R91); the machine's fetch never gives such a
  sequence (R103), so this is met by callers outside `step` only. Safe. -/
  | tooShort
  deriving DecidableEq, Repr

/-- Decode the instruction at the front of a byte sequence and give the rest (R52, R80, R91). -/
def decodeBytes : List Byte → Except DecodeError (Instr × List Byte)
  | hi :: lo :: rest => .ok (decode (wordOfBytes hi lo), rest)
  | _ => .error .tooShort

/-- The two bytes of an instruction word in memory order (R52). -/
def wordBytes (op : Word) : List Byte := [highByte op, lowByte op]

/-- The opcode table's word as the machine's word: its low `nbits` bits, every other bit 0. The table numbers
bit 0 as the least significant bit of the one 16-bit word, as R11 does. -/
def tableWord (nbits w : Nat) : Word := BitVec.ofNat 16 (w % 2 ^ min nbits 16)

/-- The instruction the decoder reads from an instruction whose bits are `w` as the opcode table numbers
them; none for a word longer than the machine's only length, 16 bits (R80, R91). -/
def decodeTableWord (nbits w : Nat) : Option Instr :=
  if nbits ≤ 16 then
    match decodeBytes (wordBytes (tableWord nbits w)) with
    | .ok (i, _) => some i
    | .error _ => none
  else none

/-! ### The encoder: field packing by format (R82, R92) -/

/-- Format NNN: `n1` and a 12-bit address. -/
def packNnn (n1 : Nat) (nnn : BitVec 12) : Word := BitVec.ofNat 16 (n1 * 4096 + nnn.toNat)

/-- Formats XKK and X: `n1`, a register, a low byte (an operand, or the function of format X). -/
def packXkk (n1 : Nat) (x : RegIx) (kk : Byte) : Word :=
  BitVec.ofNat 16 (n1 * 4096 + x.val * 256 + kk.toNat)

/-- Formats XY and XYN: `n1`, two registers, a last nibble (the function of format XY, or the row count). -/
def packXyn (n1 : Nat) (x y n : Fin 16) : Word :=
  BitVec.ofNat 16 (n1 * 4096 + x.val * 256 + y.val * 16 + n.val)

/-- The word of an instruction (R82, R86, R92). -/
def encode : Instr → Word
  | .cls => 0x00E0
  | .ret => 0x00EE
  | .jp nnn => packNnn 0x1 nnn
  | .call nnn => packNnn 0x2 nnn
  | .seKk x kk => packXkk 0x3 x kk
  | .sneKk x kk => packXkk 0x4 x kk
  | .seR x y => packXyn 0x5 x y 0x0
  | .ldKk x kk => packXkk 0x6 x kk
  | .addKk x kk => packXkk 0x7 x kk
  | .ldR x y => packXyn 0x8 x y 0x0
  | .or x y => packXyn 0x8 x y 0x1
  | .and x y => packXyn 0x8 x y 0x2
  | .xor x y => packXyn 0x8 x y 0x3
  | .addR x y => packXyn 0x8 x y 0x4
  | .sub x y => packXyn 0x8 x y 0x5
  | .shr x y => packXyn 0x8 x y 0x6
  | .subn x y => packXyn 0x8 x y 0x7
  | .shl x y => packXyn 0x8 x y 0xE
  | .sneR x y => packXyn 0x9 x y 0x0
  | .ldI nnn => packNnn 0xA nnn
  | .jpV0 nnn => packNnn 0xB nnn
  | .rnd x kk => packXkk 0xC x kk
  | .drw x y n => packXyn 0xD x y n
  | .skp x => packXkk 0xE x 0x9E
  | .sknp x => packXkk 0xE x 0xA1
  | .ldVxDt x => packXkk 0xF x 0x07
  | .ldVxK x => packXkk 0xF x 0x0A
  | .ldDtVx x => packXkk 0xF x 0x15
  | .ldStVx x => packXkk 0xF x 0x18
  | .addIVx x => packXkk 0xF x 0x1E
  | .ldFVx x => packXkk 0xF x 0x29
  | .ldBVx x => packXkk 0xF x 0x33
  | .ldMemVx x => packXkk 0xF x 0x55
  | .ldVxMem x => packXkk 0xF x 0x65
  | .unmatched op => op

/-! ### The opcode table as data (R86) -/

/-- One row of the table of R86: a word selects the row when `op AND mask = pattern` (R84). -/
structure OpcodeRow where
  mnemonic : String
  mask : Word
  pattern : Word
  deriving DecidableEq, Repr

/-- Rows 1 to 19 of R86. -/
def opcodeRowsLow : List OpcodeRow :=
  [⟨"CLS", 0xFFFF, 0x00E0⟩, ⟨"RET", 0xFFFF, 0x00EE⟩, ⟨"JP", 0xF000, 0x1000⟩, ⟨"CALL", 0xF000, 0x2000⟩,
   ⟨"SE_KK", 0xF000, 0x3000⟩, ⟨"SNE_KK", 0xF000, 0x4000⟩, ⟨"SE_R", 0xF00F, 0x5000⟩, ⟨"LD_KK", 0xF000, 0x6000⟩,
   ⟨"ADD_KK", 0xF000, 0x7000⟩, ⟨"LD_R", 0xF00F, 0x8000⟩, ⟨"OR", 0xF00F, 0x8001⟩, ⟨"AND", 0xF00F, 0x8002⟩,
   ⟨"XOR", 0xF00F, 0x8003⟩, ⟨"ADD_R", 0xF00F, 0x8004⟩, ⟨"SUB", 0xF00F, 0x8005⟩, ⟨"SHR", 0xF00F, 0x8006⟩,
   ⟨"SUBN", 0xF00F, 0x8007⟩, ⟨"SHL", 0xF00F, 0x800E⟩, ⟨"SNE_R", 0xF00F, 0x9000⟩]

/-- Rows 20 to 34 of R86. -/
def opcodeRowsHigh : List OpcodeRow :=
  [⟨"LD_I", 0xF000, 0xA000⟩, ⟨"JP_V0", 0xF000, 0xB000⟩, ⟨"RND", 0xF000, 0xC000⟩, ⟨"DRW", 0xF000, 0xD000⟩,
   ⟨"SKP", 0xF0FF, 0xE09E⟩, ⟨"SKNP", 0xF0FF, 0xE0A1⟩, ⟨"LD_VX_DT", 0xF0FF, 0xF007⟩, ⟨"LD_VX_K", 0xF0FF, 0xF00A⟩,
   ⟨"LD_DT_VX", 0xF0FF, 0xF015⟩, ⟨"LD_ST_VX", 0xF0FF, 0xF018⟩, ⟨"ADD_I_VX", 0xF0FF, 0xF01E⟩,
   ⟨"LD_F_VX", 0xF0FF, 0xF029⟩, ⟨"LD_B_VX", 0xF0FF, 0xF033⟩, ⟨"LD_MEM_VX", 0xF0FF, 0xF055⟩,
   ⟨"LD_VX_MEM", 0xF0FF, 0xF065⟩]

/-- The 34 instruction rows of R86 (R87). -/
def opcodeRows : List OpcodeRow := opcodeRowsLow ++ opcodeRowsHigh

/-- A word selects a row (R84). -/
def OpcodeRow.selects (r : OpcodeRow) (op : Word) : Bool := op &&& r.mask == r.pattern

/-- The mnemonic of an instruction (R86, R92). -/
def mnemonicOf : Instr → String
  | .cls => "CLS"
  | .ret => "RET"
  | .jp _ => "JP"
  | .call _ => "CALL"
  | .seKk _ _ => "SE_KK"
  | .sneKk _ _ => "SNE_KK"
  | .seR _ _ => "SE_R"
  | .ldKk _ _ => "LD_KK"
  | .addKk _ _ => "ADD_KK"
  | .ldR _ _ => "LD_R"
  | .or _ _ => "OR"
  | .and _ _ => "AND"
  | .xor _ _ => "XOR"
  | .addR _ _ => "ADD_R"
  | .sub _ _ => "SUB"
  | .shr _ _ => "SHR"
  | .subn _ _ => "SUBN"
  | .shl _ _ => "SHL"
  | .sneR _ _ => "SNE_R"
  | .ldI _ => "LD_I"
  | .jpV0 _ => "JP_V0"
  | .rnd _ _ => "RND"
  | .drw _ _ _ => "DRW"
  | .skp _ => "SKP"
  | .sknp _ => "SKNP"
  | .ldVxDt _ => "LD_VX_DT"
  | .ldVxK _ => "LD_VX_K"
  | .ldDtVx _ => "LD_DT_VX"
  | .ldStVx _ => "LD_ST_VX"
  | .addIVx _ => "ADD_I_VX"
  | .ldFVx _ => "LD_F_VX"
  | .ldBVx _ => "LD_B_VX"
  | .ldMemVx _ => "LD_MEM_VX"
  | .ldVxMem _ => "LD_VX_MEM"
  | .unmatched _ => "UNMATCHED"

end Sys2Proof
end

