-- ==== Sys2Proof/Config.lean ====
section
/-! DEFINITION. The two parameters of the machine (00_scope.md R7): the random byte, a free value with no
body, and the FONT bytes, whose default instance is the conventional table of 10_state.md R31. What a
memory cell holds right after reset (R35) is derived from the FONT here. -/

namespace Sys2Proof

/-- The free byte that stands for the input `rand` of the `k`-th `CYCLE` (R7, R100, R160; log entry 2).
It has no body: nothing can be proved of its value. -/
opaque Config.rand : Nat → Byte

/-- The font: 80 bytes, glyph `d` at bytes `5*d` to `5*d+4` (R6, R31). -/
abbrev Font := Vector Byte 80

/-- Glyphs 0 to 7 of the conventional font (R31, from general knowledge there). PRESUMED, log entry 1. -/
def Config.glyphsLow : Vector Byte 40 :=
  #v[0xF0, 0x90, 0x90, 0x90, 0xF0,  0x20, 0x60, 0x20, 0x20, 0x70,
     0xF0, 0x10, 0xF0, 0x80, 0xF0,  0xF0, 0x10, 0xF0, 0x10, 0xF0,
     0x90, 0x90, 0xF0, 0x10, 0x10,  0xF0, 0x80, 0xF0, 0x10, 0xF0,
     0xF0, 0x80, 0xF0, 0x90, 0xF0,  0xF0, 0x10, 0x20, 0x40, 0x40]

/-- Glyphs 8 to F of the conventional font (R31). PRESUMED, log entry 1. -/
def Config.glyphsHigh : Vector Byte 40 :=
  #v[0xF0, 0x90, 0xF0, 0x90, 0xF0,  0xF0, 0x90, 0xF0, 0x10, 0xF0,
     0xF0, 0x90, 0xF0, 0x90, 0x90,  0xE0, 0x90, 0xE0, 0x90, 0xE0,
     0xF0, 0x80, 0x80, 0x80, 0xF0,  0xE0, 0x90, 0x90, 0x90, 0xE0,
     0xF0, 0x80, 0xF0, 0x80, 0xF0,  0xF0, 0x80, 0xF0, 0x80, 0x80]

/-- The default instance of the parameter FONT (R7, R31, decision D17). PRESUMED, log entry 1. -/
def Config.font : Font := Config.glyphsLow ++ Config.glyphsHigh

/-- What cell `a` holds right after reset, hence what an address that memory does not list reads as:
`FONT[a]` below 0x050, 0 from there on (R35, 20_memory.md R51). -/
def Config.resetByte (a : Nat) : Byte := if h : a < 80 then Config.font[a] else 0

end Sys2Proof
end

