-- ==== Sys2Proof/Machine/State.lean ====
section
/-! DEFINITION. The machine's state (10_state.md R20), its faults (60_exceptions.md R240) and its value right
after reset (R35). Plain data only. -/

namespace Sys2Proof.Machine

/-- The five synchronous faults of CYCLE, each with the information 60_exceptions.md R240 records. A fault
is not an outcome that loses the state: it is latched in `State.fault` (R32, R246). Every one is the spec's
own; where the source leaves the behaviour undefined the spec decides for the fault (D3, D7, D8), which is
safe: the model stops where another implementation might go on (log entry 6). -/
inductive Fault where
  /-- Code 1, raised by fetch when `pc + 1 >= 4096` (R103, R241). Safe. -/
  | fetchOutOfBounds (pc : Word)
  /-- Code 2, raised by DRW, LD_B_VX, LD_MEM_VX and LD_VX_MEM when the highest address needed is above 4095
  (R58, R242); `base` is `I`, `last` that address, an unreduced integer. Safe. -/
  | memIndexOutOfRange (base : Word) (last : Nat) (pc : Word)
  /-- Code 3, raised by SKP and SKNP when `V[x] >= 16` (R201, R202, R243). Safe. -/
  | keyIndexOutOfRange (value : Byte) (pc : Word)
  /-- Code 4, raised by CALL when `sp = 16` (R123, R244). Safe. -/
  | stackOverflow (pc : Word)
  /-- Code 5, raised by RET when `sp = 0` (R121, R244). Safe. -/
  | stackUnderflow (pc : Word)
  deriving DecidableEq, Repr

/-- Why the model itself gives an instruction no meaning. No instruction is refused (40_cycle.md R111). -/
inductive Refusal where
  /-- Raised by an arm of `exec` whose instruction has no meaning in the model yet. Safe. No arm raises it. -/
  | notModelled (mnemonic : String)
  deriving DecidableEq, Repr

/-- Memory as (address, byte) pairs: addresses strictly rising and below 4096, no entry equal to what an
unlisted address reads as, `Config.resetByte` (20_memory.md R50, R51). -/
abbrev Memory := List Host.Cell

/-- The framebuffer: 32 rows of 64 cells, true is on (R33). -/
abbrev Framebuffer := Vector (Vector Bool 64) 32

/-- The whole state of the machine, in the order of 10_state.md R20. -/
structure State where
  /-- general registers `V[0]` to `V[15]`; `V[0xF]` is also the flag (R22, R23) -/
  V : Vector Byte 16
  /-- program counter: the address of the instruction to be fetched (R24, R25) -/
  pc : Word
  /-- index register (R26) -/
  I : Word
  /-- stack pointer, the next free slot, 0 to 16 (R27) -/
  sp : Fin 17
  /-- return-address stack: addresses of CALL instructions (R29) -/
  stack : Vector Word 16
  /-- delay timer (R28) -/
  DT : Byte
  /-- sound timer (R28) -/
  ST : Byte
  /-- key flags, true is pressed (R30) -/
  key : Vector Bool 16
  /-- framebuffer (R33) -/
  fb : Framebuffer
  /-- memory (R31) -/
  mem : Memory
  /-- fault latch (R32) -/
  fault : Option Fault
  /-- the model's own: how many random bytes have been consumed; it only picks the next free byte
  `Config.rand draws` (log entry 2) -/
  draws : Nat
  deriving DecidableEq, Repr

/-- The state right after `INIT` with the default FONT (R35, R280). Memory lists nothing: every cell holds its
reset content. `draws` is the model's own, DESIGN CHOICE 0 (log entry 2). -/
def State.reset : State where
  V := Vector.replicate 16 0
  pc := 0x200
  I := 0
  sp := 0
  stack := Vector.replicate 16 0
  DT := 0
  ST := 0
  key := Vector.replicate 16 false
  fb := Vector.replicate 32 (Vector.replicate 64 false)
  mem := []
  fault := none
  draws := 0

end Sys2Proof.Machine
end

