-- ==== Sys2Proof/Machine/Ops.lean ====
section
/-! DEFINITION. The named operations over memory and registers that every meaning is written with: the memory
primitives of 00_scope.md R14, one update per field of State, the program-counter policy (40_cycle.md R106,
R107), fetch (R102, R103), the timer tick (R108), taking a fault (60_exceptions.md R245, R246) and INIT, the
one way back from it (R249, 70_reset_and_hazards.md R280). -/

namespace Sys2Proof.Machine

/-! ### Memory -/

/-- The byte at an address: the listed one, or the reset content (R14, R57). Total; every caller tests the
range 0 to 4095 first (R58; log entry 10). -/
def Memory.read : Memory → Nat → Byte
  | [], a => Config.resetByte a
  | (b, w) :: rest, a => if b = a then w else Memory.read rest a

/-- Take an address out of the list, so that it reads as its reset content. -/
def Memory.remove (m : Memory) (a : Nat) : Memory := m.filter fun c => c.1 != a

/-- Put an entry in front of the first higher address. -/
def Memory.insert : Memory → Nat → Byte → Memory
  | [], a, v => [(a, v)]
  | (b, w) :: rest, a, v => if a < b then (a, v) :: (b, w) :: rest else (b, w) :: Memory.insert rest a v

/-- `MemWrite(a, 1, v)` (R14), keeping the addresses rising and no entry equal to the reset content. An address
of 4096 or more does not exist: nothing is written (log entry 10; every caller tests the range first, R58). -/
def Memory.write (m : Memory) (a : Nat) (v : Byte) : Memory :=
  if a < 4096 then
    (if v = Config.resetByte a then m.remove a else (m.remove a).insert a v)
  else m

/-- Consecutive bytes from an address up, one MemWrite each (R53, R56). -/
def Memory.writeBytes : Memory → Nat → List Byte → Memory
  | m, _, [] => m
  | m, a, v :: vs => (m.write a v).writeBytes (a + 1) vs

/-- The canonical form: addresses strictly rising, all of them existing, no entry equal to the reset
content. -/
abbrev Memory.wf (m : Memory) : Prop :=
  m.Pairwise (fun c d => c.1 < d.1) ∧ ∀ c ∈ m, c.1 < 4096 ∧ c.2 ≠ Config.resetByte c.1

/-! ### One update per field -/

/-- Replace the whole register file. -/
def State.setV (s : State) (v : Vector Byte 16) : State := { s with V := v }

/-- `V[x]` (R22): every register is readable at all times. -/
def State.reg (s : State) (x : RegIx) : Byte := s.V[x]

/-- `V[x] <- v` (R22): no register is hard-wired. -/
def State.setReg (s : State) (x : RegIx) (v : Byte) : State := s.setV (s.V.set x v)

/-- `pc <- v` (R24). -/
def State.setPc (s : State) (v : Word) : State := { s with pc := v }

/-- `I <- v` (R26). -/
def State.setI (s : State) (v : Word) : State := { s with I := v }

/-- `sp <- v` (R27). -/
def State.setSp (s : State) (v : Fin 17) : State := { s with sp := v }

/-- Replace the return-address stack (R29). -/
def State.setStack (s : State) (v : Vector Word 16) : State := { s with stack := v }

/-- `DT <- v` (R28). -/
def State.setDT (s : State) (v : Byte) : State := { s with DT := v }

/-- `ST <- v` (R28). -/
def State.setST (s : State) (v : Byte) : State := { s with ST := v }

/-- Replace the key flags (R30). -/
def State.setKey (s : State) (v : Vector Bool 16) : State := { s with key := v }

/-- Replace the framebuffer (R33). -/
def State.setFb (s : State) (v : Framebuffer) : State := { s with fb := v }

/-- Replace memory (R31). -/
def State.setMem (s : State) (v : Memory) : State := { s with mem := v }

/-- Replace the fault latch (R32). -/
def State.setFault (s : State) (v : Option Fault) : State := { s with fault := v }

/-- Replace the model's count of consumed random bytes (log entry 2). -/
def State.setDraws (s : State) (v : Nat) : State := { s with draws := v }

/-! ### Program counter (R106, R107: every value is reduced modulo 65536, never modulo 4096) -/

/-- The default advance of a sequential instruction: `pc <- (pc + 2) mod 65536`. -/
def State.advance (s : State) : State := s.setPc (s.pc + 2)

/-- The policy of a conditional skip: 4 when the condition holds, else 2 (R106, R129). -/
def State.skipIf (s : State) (cond : Bool) : State := s.setPc (if cond then s.pc + 4 else s.pc + 2)

/-! ### Taking a fault -/

/-- Taking a fault: the latch is set and nothing else changes; there is no handler, no saved register and no
mode (R245, R246, R248). The tick is left out by the cycle (Machine/Cycle.lean). It is a NEXT state, the
faulted one, because the spec gives that state (log entry 3). -/
def takeFault (f : Fault) (s : State) : Host.Outcome State Fault Refusal := .next (s.setFault (some f))

/-- The numeric code of a fault (R240, decision D6); nothing in the machine reads it. -/
def Fault.code : Fault → Nat
  | .fetchOutOfBounds _ => 1
  | .memIndexOutOfRange _ _ _ => 2
  | .keyIndexOutOfRange _ _ => 3
  | .stackOverflow _ => 4
  | .stackUnderflow _ => 5

/-- `INIT` with a FONT: every piece of state at its value of 10_state.md R35, whatever it was before. There is
no return from a fault but this (R249, R280, R281). `draws` only keeps the random bytes of later cycles
fresh (log entry 2). -/
def initialise (font : Font) (draws : Nat) : State :=
  { State.reset with mem := Memory.writeBytes [] 0 font.toList, draws := draws }

/-! ### Fetch and tick -/

/-- Fetch: the big-endian word at `pc` and `pc + 1`, none when `pc + 1 >= 4096` in the integers (R102, R103,
20_memory.md R52, R54, R64). It changes no state. -/
def fetch (s : State) : Option Word :=
  if s.pc.toNat + 1 < 4096 then
    some (wordOfBytes (s.mem.read s.pc.toNat) (s.mem.read (s.pc.toNat + 1)))
  else none

/-- One timer, one tick: down by one when nonzero, 0 is a floor (R108). -/
def tickTimer (t : Byte) : Byte := if 0 < t.toNat then t - 1 else t

/-- The timer tick: the two timers independently, nothing else (R108). -/
def tick (s : State) : State := (s.setDT (tickTimer s.DT)).setST (tickTimer s.ST)

/-- Each CYCLE gets a fresh random byte (R160, 46_host_operations.md R221; log entry 2). -/
def nextDraw (s : State) : State := s.setDraws (s.draws + 1)

end Sys2Proof.Machine
end

