-- ==== Sys2Proof/Machine/Cycle.lean ====
section
/-! DEFINITION. The cycle state machine (40_cycle.md R100): latch test, fetch, decode, execute, tick. It is
written over the execute stage it runs, so that `step` (the random byte drawn from the free source) and
`cycleWith` (the random byte given by the host) share it. -/

namespace Sys2Proof.Machine

/-- What follows execute: a cycle that did not fault ticks the timers (R108, R109) and uses up its random
byte; a cycle that took a fault does neither (R246). -/
def endOfCycle (t : State) : State :=
  match t.fault with
  | none => nextDraw (tick t)
  | some _ => t

/-- The end of a cycle whose execute stage answered `o`. -/
def finish (o : Host.Outcome State Fault Refusal) : Host.Outcome State Fault Refusal :=
  match o with
  | .next t => .next (endOfCycle t)
  | .fault f => .fault f
  | .refused r => .refused r

/-- `CYCLE` (R100) over the execute stage `run`. A faulted machine does nothing (R101); a `pc` past the end
takes FetchOutOfBounds (R103); otherwise the fetched word is decoded, executed, and the cycle ends. -/
def runCycle (run : Instr → State → Host.Outcome State Fault Refusal) (s : State) :
    Host.Outcome State Fault Refusal :=
  match s.fault with
  | some _ => .next s
  | none =>
    match fetch s with
    | none => takeFault (.fetchOutOfBounds s.pc) s
    | some op => finish (run (decode op) s)

/-- What CYCLE reports to the host (R111). -/
inductive CycleResult where
  | ok
  | faulted (f : Fault)
  deriving DecidableEq, Repr

/-- The report of a cycle that left the state `after`: `Faulted` with the latched fault, or `Ok` (R100, R101,
R111, R246; log entry 3). -/
def cycleResult (after : State) : CycleResult :=
  match after.fault with
  | none => .ok
  | some f => .faulted f

end Sys2Proof.Machine
end

