-- ==== Sys2Proof/Machine/Operands.lean ====
section
/-! DEFINITION. Every operand form of the instructions: zero-extended addresses (30_encoding.md R83), the one
addressing mode `I + i` with its range test (43_index_memory.md R170, 20_memory.md R58), the key index
(45_keypad_timers.md R201), glyph addresses (R173), decimal digits (R174), register blocks (R175, R176) and
the bits of a sprite row (44_display.md R194). -/

namespace Sys2Proof.Machine

/-- An immediate address as a 16-bit value, zero-extended (R83). -/
def addressOf (nnn : BitVec 12) : Word := nnn.setWidth 16

/-- The addressing mode `I + i` for `i` from 0 to `count - 1`: if the highest address needed passes 4095 the
instruction takes MemIndexOutOfRange and accesses nothing, else it ends in `done` (R58, R170, R242). No
address is reduced. A count of 0 accesses nothing and cannot fault (R195). -/
def accessing (count : Nat) (s done : State) : Host.Outcome State Fault Refusal :=
  if 1 ≤ count ∧ 4095 < s.I.toNat + count - 1 then
    takeFault (.memIndexOutOfRange s.I (s.I.toNat + count - 1) s.pc) s
  else .next done

/-- A register as a key index: the whole of it, not its low nibble; 16 or more takes KeyIndexOutOfRange
(R201, R202, R243). -/
def withKeyIndex (v : Byte) (s : State) (use : RegIx → State) : Host.Outcome State Fault Refusal :=
  if h : v.toNat < 16 then .next (use ⟨v.toNat, h⟩) else takeFault (.keyIndexOutOfRange v s.pc) s

/-- The least index whose key flag is true, if any is (R203). -/
def lowestKey (key : Vector Bool 16) : Option RegIx := (List.finRange 16).find? (fun k => key[k])

/-- A key index as a register value. -/
def keyByte (k : RegIx) : Byte := BitVec.ofNat 8 k.val

/-- The address of the glyph of the low nibble of a register, `0x000 + 5 * (v mod 16)` (R173). -/
def glyphAddress (v : Byte) : Word := BitVec.ofNat 16 (0x000 + 5 * (v.toNat % 16))

/-- The decimal digits of a byte: hundreds, tens, ones (R174, R53). -/
def decimalDigits (v : Byte) : List Byte :=
  [BitVec.ofNat 8 (v.toNat / 100), BitVec.ofNat 8 (v.toNat / 10 % 10), BitVec.ofNat 8 (v.toNat % 10)]

/-- `V[0]` to `V[x]`, `x + 1` bytes in register order (R175). -/
def registersUpTo (s : State) (x : RegIx) : List Byte := s.V.toList.take (x.val + 1)

/-- The register file with `V[i]` loaded from `I + i` for `i` in 0 to `x`, the others kept (R176). -/
def loadedRegisters (s : State) (x : RegIx) : Vector Byte 16 :=
  Vector.ofFn fun i : RegIx => if i ≤ x then s.mem.read (s.I.toNat + i.val) else s.V[i]

/-- Sprite column `c` of a sprite row, 0 the leftmost: bit `7 - c` (R194, decision D16). PRESUMED by the spec
from general knowledge, log entry 5. -/
def spriteBit (row : Byte) (c : Nat) : Bool := row.getLsbD (7 - c)

end Sys2Proof.Machine
end

