-- ==== Sys2Proof/Machine/ControlFlow.lean ====
section
/-! DEFINITION. Control transfer: RET, JP, CALL, JP_V0 and the skips on registers (41_control_flow.md). -/

namespace Sys2Proof.Machine

/-- RET (R121): the slot that `sp` indexes after the decrement holds the address of the CALL; execution
resumes 2 after it. StackUnderflow at `sp = 0`. The popped slot keeps its value (R16, R29). -/
def execRet (s : State) : Host.Outcome State Fault Refusal :=
  if h : s.sp.val = 0 then takeFault (.stackUnderflow s.pc) s
  else .next ((s.setSp ⟨s.sp.val - 1, by omega⟩).setPc (s.stack[s.sp.val - 1] + 2))

/-- JP (R122). -/
def execJp (nnn : BitVec 12) (s : State) : Host.Outcome State Fault Refusal := .next (s.setPc (addressOf nnn))

/-- CALL (R123): pushes its own address. StackOverflow at `sp = 16`. -/
def execCall (nnn : BitVec 12) (s : State) : Host.Outcome State Fault Refusal :=
  if h : s.sp.val = 16 then takeFault (.stackOverflow s.pc) s
  else .next (((s.setStack (s.stack.set s.sp.val s.pc (by omega))).setSp ⟨s.sp.val + 1, by omega⟩).setPc
    (addressOf nnn))

/-- JP_V0 (R124): always `V[0]`; the sum is not reduced to 12 bits. -/
def execJpV0 (nnn : BitVec 12) (s : State) : Host.Outcome State Fault Refusal :=
  .next (s.setPc (addressOf nnn + (s.reg 0).setWidth 16))

/-- SE_KK (R125). -/
def execSeKk (x : RegIx) (kk : Byte) (s : State) : Host.Outcome State Fault Refusal :=
  .next (s.skipIf (s.reg x == kk))

/-- SNE_KK (R126). -/
def execSneKk (x : RegIx) (kk : Byte) (s : State) : Host.Outcome State Fault Refusal :=
  .next (s.skipIf (s.reg x != kk))

/-- SE_R (R127). -/
def execSeR (x y : RegIx) (s : State) : Host.Outcome State Fault Refusal := .next (s.skipIf (s.reg x == s.reg y))

/-- SNE_R (R128). -/
def execSneR (x y : RegIx) (s : State) : Host.Outcome State Fault Refusal := .next (s.skipIf (s.reg x != s.reg y))

end Sys2Proof.Machine
end

