-- ==== Sys2Proof/Machine/Flags.lean ====
section
/-! DEFINITION. Every flag computation (10_state.md R23, 42_load_alu.md R140) and the one way a flag-setting
instruction writes its two results (00_scope.md R18). The flag register is `V[0xF]`. -/

namespace Sys2Proof.Machine

/-- The flag register, VF (R23). -/
abbrev VF : RegIx := 15

/-- A flag as a register value: 1 or 0 (R23). -/
def flagByte (b : Bool) : Byte := if b then 1 else 0

/-- Carry of an 8-bit addition: the true sum is at least 256 (R147). -/
def carry (a b : Byte) : Bool := decide (256 ≤ a.toNat + b.toNat)

/-- NOT borrow of the subtraction `a - b`: false when `a < b`, true otherwise, so true when equal (R148,
R150). -/
def notBorrow (a b : Byte) : Bool := !decide (a.toNat < b.toNat)

/-- The bit a right shift by one moves out: `a mod 2` (R149). -/
def shiftedOutLow (a : Byte) : Bool := decide (a.toNat % 2 = 1)

/-- The bit a left shift by one moves out: `a / 128` (R151). -/
def shiftedOutHigh (a : Byte) : Bool := decide (a.toNat / 128 = 1)

/-- The result to `V[x]` first and the flag to `V[0xF]` last, so that the flag wins when `x = 0xF`; then the
default advance (R18, R106). -/
def writeResultThenFlag (s : State) (x : RegIx) (result : Byte) (flag : Bool) : State :=
  ((s.setReg x result).setReg VF (flagByte flag)).advance

end Sys2Proof.Machine
end

