-- ==== Sys2Proof/Machine/Display.lean ====
section
/-! DEFINITION. Display: clear and sprite draw (44_display.md), with the framebuffer's cell operations
(10_state.md R33). -/

namespace Sys2Proof.Machine

/-- `fb[r][c]`. -/
def Framebuffer.cell (fb : Framebuffer) (r : Fin 32) (c : Fin 64) : Bool := fb[r][c]

/-- `fb[r][c] <- not fb[r][c]`. -/
def Framebuffer.toggle (fb : Framebuffer) (r : Fin 32) (c : Fin 64) : Framebuffer :=
  fb.set r (fb[r].set c (!fb[r][c]))

/-- Every cell off. -/
def Framebuffer.clear : Framebuffer := Vector.replicate 32 (Vector.replicate 64 false)

/-- One sprite bit of 1 on its target cell: a collision if the cell was on, and the cell toggles (R192,
R195). -/
def drawPixel (acc : Framebuffer × Bool) (r : Fin 32) (c : Fin 64) : Framebuffer × Bool :=
  (acc.1.toggle r c, acc.2 || acc.1.cell r c)

/-- One sprite row: column `c` of the sprite lands on column `(vx + c) mod 64` (R192, R193). -/
def drawRow (bits : Byte) (row : Fin 32) (vx : Nat) (acc : Framebuffer × Bool) : Framebuffer × Bool :=
  (List.range 8).foldl
    (fun acc c => if spriteBit bits c then drawPixel acc row (Fin.ofNat 64 (vx + c)) else acc) acc

/-- The loops of R192: row `r` of the sprite is the byte at `base + r` and lands on row `(vy + r) mod 32`. The
answer is the framebuffer and whether any on cell was turned off. -/
def drawSprite (m : Memory) (base vx vy n : Nat) (fb : Framebuffer) : Framebuffer × Bool :=
  (List.range n).foldl (fun acc r => drawRow (m.read (base + r)) (Fin.ofNat 32 (vy + r)) vx acc) (fb, false)

/-- CLS (R191). -/
def execCls (s : State) : Host.Outcome State Fault Refusal := .next (s.setFb Framebuffer.clear).advance

/-- DRW (R192 to R195): VF, the collision of this draw alone, is written last and always. `n = 0` reads
nothing, draws nothing, cannot fault and clears VF. -/
def execDrw (x y : RegIx) (n : Fin 16) (s : State) : Host.Outcome State Fault Refusal :=
  let drawn := drawSprite s.mem s.I.toNat (s.reg x).toNat (s.reg y).toNat n.val s.fb
  accessing n.val s ((s.setFb drawn.1).setReg VF (flagByte drawn.2)).advance

end Sys2Proof.Machine
end

