-- ==== Sys2Proof/Machine/Fallback.lean ====
section
/-! DEFINITION. The fallback instruction: every unmatched word is a no-op that advances `pc`
(40_cycle.md R110). -/

namespace Sys2Proof.Machine

/-- UNMATCHED (R110): not an error, whatever the word is (R88). -/
def execUnmatched (_op : Word) (s : State) : Host.Outcome State Fault Refusal := .next s.advance

end Sys2Proof.Machine
end

