-- ==== Sys2Proof/Machine/IndexMemory.lean ====
section
/-! DEFINITION. The index register, font lookup, BCD, and register block store and load
(43_index_memory.md). `I` is changed by no instruction that uses it as a base (R170). -/

namespace Sys2Proof.Machine

/-- LD_I (R171). -/
def execLdI (nnn : BitVec 12) (s : State) : Host.Outcome State Fault Refusal := .next (s.setI (addressOf nnn)).advance

/-- ADD_I_VX (R172): wraps at 16 bits, sets no flag. -/
def execAddIVx (x : RegIx) (s : State) : Host.Outcome State Fault Refusal :=
  .next (s.setI (s.I + (s.reg x).setWidth 16)).advance

/-- LD_F_VX (R173): an address only; memory is not read. -/
def execLdFVx (x : RegIx) (s : State) : Host.Outcome State Fault Refusal :=
  .next (s.setI (glyphAddress (s.reg x))).advance

/-- LD_B_VX (R174). -/
def execLdBVx (x : RegIx) (s : State) : Host.Outcome State Fault Refusal :=
  accessing 3 s (s.setMem (s.mem.writeBytes s.I.toNat (decimalDigits (s.reg x)))).advance

/-- LD_MEM_VX (R175): `x + 1` bytes. -/
def execLdMemVx (x : RegIx) (s : State) : Host.Outcome State Fault Refusal :=
  accessing (x.val + 1) s (s.setMem (s.mem.writeBytes s.I.toNat (registersUpTo s x))).advance

/-- LD_VX_MEM (R176): `x + 1` registers. -/
def execLdVxMem (x : RegIx) (s : State) : Host.Outcome State Fault Refusal :=
  accessing (x.val + 1) s (s.setV (loadedRegisters s x)).advance

end Sys2Proof.Machine
end

