-- ==== Sys2Proof/Machine/KeypadTimers.lean ====
section
/-! DEFINITION. Keypad and timer instructions (45_keypad_timers.md). The tick of the same cycle follows in the
cycle, not here (40_cycle.md R109). -/

namespace Sys2Proof.Machine

/-- SKP (R201). -/
def execSkp (x : RegIx) (s : State) : Host.Outcome State Fault Refusal :=
  withKeyIndex (s.reg x) s fun k => s.skipIf s.key[k]

/-- SKNP (R202). -/
def execSknp (x : RegIx) (s : State) : Host.Outcome State Fault Refusal :=
  withKeyIndex (s.reg x) s fun k => s.skipIf (!s.key[k])

/-- LD_VX_DT (R204): `DT` before this cycle's tick. -/
def execLdVxDt (x : RegIx) (s : State) : Host.Outcome State Fault Refusal := .next (s.setReg x s.DT).advance

/-- LD_VX_K (R203): the lowest pressed key, or a cycle that writes nothing and leaves `pc` where it was. -/
def execLdVxK (x : RegIx) (s : State) : Host.Outcome State Fault Refusal :=
  match lowestKey s.key with
  | some k => .next (s.setReg x (keyByte k)).advance
  | none => .next s

/-- LD_DT_VX (R205). -/
def execLdDtVx (x : RegIx) (s : State) : Host.Outcome State Fault Refusal := .next (s.setDT (s.reg x)).advance

/-- LD_ST_VX (R206). -/
def execLdStVx (x : RegIx) (s : State) : Host.Outcome State Fault Refusal := .next (s.setST (s.reg x)).advance

end Sys2Proof.Machine
end

