-- ==== Sys2Proof/Machine/LoadAlu.lean ====
section
/-! DEFINITION. Register loads, arithmetic, logic, shifts and random (42_load_alu.md). None can fault. -/

namespace Sys2Proof.Machine

/-- LD_KK (R141). -/
def execLdKk (x : RegIx) (kk : Byte) (s : State) : Host.Outcome State Fault Refusal :=
  .next (s.setReg x kk).advance

/-- ADD_KK (R142): wraps, writes no flag. -/
def execAddKk (x : RegIx) (kk : Byte) (s : State) : Host.Outcome State Fault Refusal :=
  .next (s.setReg x (s.reg x + kk)).advance

/-- LD_R (R143). -/
def execLdR (x y : RegIx) (s : State) : Host.Outcome State Fault Refusal := .next (s.setReg x (s.reg y)).advance

/-- OR (R144): writes no flag. -/
def execOr (x y : RegIx) (s : State) : Host.Outcome State Fault Refusal :=
  .next (s.setReg x (s.reg x ||| s.reg y)).advance

/-- AND (R145): writes no flag. -/
def execAnd (x y : RegIx) (s : State) : Host.Outcome State Fault Refusal :=
  .next (s.setReg x (s.reg x &&& s.reg y)).advance

/-- XOR (R146): writes no flag. -/
def execXor (x y : RegIx) (s : State) : Host.Outcome State Fault Refusal :=
  .next (s.setReg x (s.reg x ^^^ s.reg y)).advance

/-- ADD_R (R147): VF is the carry. -/
def execAddR (x y : RegIx) (s : State) : Host.Outcome State Fault Refusal :=
  .next (writeResultThenFlag s x (s.reg x + s.reg y) (carry (s.reg x) (s.reg y)))

/-- SUB (R148): VF is NOT borrow. -/
def execSub (x y : RegIx) (s : State) : Host.Outcome State Fault Refusal :=
  .next (writeResultThenFlag s x (s.reg x - s.reg y) (notBorrow (s.reg x) (s.reg y)))

/-- SHR (R149): shifts `V[x]` in place; `V[y]` is neither read nor written. -/
def execShr (x _y : RegIx) (s : State) : Host.Outcome State Fault Refusal :=
  .next (writeResultThenFlag s x (s.reg x >>> 1) (shiftedOutLow (s.reg x)))

/-- SUBN (R150): `V[y] - V[x]`; VF is NOT borrow of that subtraction. -/
def execSubn (x y : RegIx) (s : State) : Host.Outcome State Fault Refusal :=
  .next (writeResultThenFlag s x (s.reg y - s.reg x) (notBorrow (s.reg y) (s.reg x)))

/-- SHL (R151): shifts `V[x]` in place; `V[y]` is neither read nor written. -/
def execShl (x _y : RegIx) (s : State) : Host.Outcome State Fault Refusal :=
  .next (writeResultThenFlag s x (s.reg x <<< 1) (shiftedOutHigh (s.reg x)))

/-- RND's effect for a given random byte (R160). -/
def rndWith (rand : Byte) (x : RegIx) (kk : Byte) (s : State) : State := (s.setReg x (rand &&& kk)).advance

/-- RND (R160): `rand` is the free byte of this cycle (log entry 2). -/
def execRnd (x : RegIx) (kk : Byte) (s : State) : Host.Outcome State Fault Refusal :=
  .next (rndWith (Config.rand s.draws) x kk s)

end Sys2Proof.Machine
end

