-- ==== Sys2Proof/Machine/Step.lean ====
section
/-! DEFINITION. One step is one CYCLE (40_cycle.md R100), its random byte drawn from the free source; and the
placing of a word where the next step fetches it. -/

namespace Sys2Proof.Machine

/-- One CYCLE. -/
def step (s : State) : Host.Outcome State Fault Refusal := runCycle exec s

/-- The state with a word of the opcode table stored, high byte first, where the next step fetches: at `pc`
and `pc + 1` (R52, R102). Nothing else changes, but that a state no step fetches from is made to fetch: a
latched fault is cleared and a `pc` past 4094 becomes the entry point (log entry 4). -/
def State.withFetchWord (s : State) (nbits w : Nat) : State :=
  let pc := if s.pc.toNat + 1 < 4096 then s.pc else 0x200
  { s with pc := pc, fault := none, mem := s.mem.writeBytes pc.toNat (wordBytes (tableWord nbits w)) }

end Sys2Proof.Machine
end

