-- ==== Sys2Proof/Machine/HostOps.lean ====
section
/-! DEFINITION. The operations the host performs on the machine (46_host_operations.md R220): INIT, LOAD, CYCLE
with its random byte, KEY_DOWN, KEY_UP, FB_READ, TIMER_READ; and the labelled transition system they make
(00_scope.md R9). None of them is an instruction and none faults the machine but CYCLE (R251). -/

namespace Sys2Proof.Machine

/-- Execute with the random byte `rand` given from outside: only RND looks at it (40_cycle.md R112, R160). -/
def executeWith (rand : Byte) (i : Instr) (s : State) : Host.Outcome State Fault Refusal :=
  match i with
  | .rnd x kk => .next (rndWith rand x kk s)
  | other => exec other s

/-- `CYCLE(rand)` (R100, R221). -/
def cycleWith (rand : Byte) (s : State) : Host.Outcome State Fault Refusal := runCycle (executeWith rand) s

/-- The result of `LOAD` (R222). `loadOutOfBounds` is an error to the caller, not a fault (R251). -/
inductive LoadResult where
  | ok
  | loadOutOfBounds
  deriving DecidableEq, Repr

/-- The default offset of `LOAD`, the entry point (R6, R222). -/
def loadDefault : Nat := 0x200

/-- `LOAD(offset, bytes)`: refused whole below 0x200 or past 4096, else the bytes verbatim (R222, R223). It writes
memory only. -/
def load (offset : Nat) (bytes : List Byte) (s : State) : State × LoadResult :=
  if offset < 0x200 ∨ 4096 < offset + bytes.length then (s, .loadOutOfBounds)
  else (s.setMem (s.mem.writeBytes offset bytes), .ok)

/-- `KEY_DOWN(k)` (R224). -/
def keyDown (k : RegIx) (s : State) : State := s.setKey (s.key.set k true)

/-- `KEY_UP(k)` (R225). -/
def keyUp (k : RegIx) (s : State) : State := s.setKey (s.key.set k false)

/-- The result of a key operation whose index comes in a wider type (R228). -/
inductive KeyResult where
  | ok
  | indexRejected
  deriving DecidableEq, Repr

/-- A key operation with an index of a wider type: 16 or more is rejected and changes nothing (R228, D15). -/
def withWideKey (k : Nat) (use : RegIx → State → State) (s : State) : State × KeyResult :=
  if h : k < 16 then (use ⟨k, h⟩ s, .ok) else (s, .indexRejected)

/-- `FB_READ`: the flat row-major sequence, element `64*r + c` is `fb[r][c]` (R226). -/
def fbRead (s : State) : Vector Bool 2048 :=
  Vector.ofFn fun i : Fin 2048 => s.fb[i.val / 64][i.val % 64]

/-- `TIMER_READ`: `DT` and `ST` (R227). -/
def timerRead (s : State) : Byte × Byte := (s.DT, s.ST)

/-- `INIT` with a FONT, at any time (R280, R281). The free source of random bytes goes on (log entry 2). -/
def init (font : Font) (s : State) : State := initialise font s.draws

/-- The labels of the transition system: the seven operations (R9, R220). Key indexes have 16 values (R228). -/
inductive HostOp where
  | init (font : Font)
  | load (offset : Nat) (bytes : List Byte)
  | cycle (rand : Byte)
  | keyDown (k : RegIx)
  | keyUp (k : RegIx)
  | fbRead
  | timerRead
  deriving DecidableEq, Repr

/-- What an operation gives back to the host (R220). -/
inductive Response where
  | none
  | loaded (r : LoadResult)
  | cycled (r : CycleResult)
  | framebuffer (cells : Vector Bool 2048)
  | timers (dt st : Byte)
  deriving DecidableEq, Repr

/-- One operation, atomic (R9): the state after it and what it gives back. A CYCLE always has a next state
(R111), so the last two arms of the inner match are never met. -/
def perform (o : HostOp) (s : State) : State × Response :=
  match o with
  | .init font => (init font s, .none)
  | .load offset bytes => ((load offset bytes s).1, .loaded (load offset bytes s).2)
  | .cycle rand =>
    match cycleWith rand s with
    | .next t => (t, .cycled (cycleResult t))
    | .fault f => (s, .cycled (.faulted f))
    | .refused _ => (s, .none)
  | .keyDown k => (keyDown k s, .none)
  | .keyUp k => (keyUp k s, .none)
  | .fbRead => (s, .framebuffer (fbRead s))
  | .timerRead => (s, .timers s.DT s.ST)

end Sys2Proof.Machine
end

