-- ==== Sys2Proof/Safety.lean ====
section
/-! DEFINITION. The terms claims are stated in: what a safe state is, the invariant of every reachable state
(10_state.md R36), frames (00_scope.md R16), and the shapes that a family's instructions share
(41_control_flow.md R120: result, frame and program counter, in the unbounded arithmetic of R12). -/

namespace Sys2Proof.Machine

/-! ### Safe runs -/

/-- A state that has not faulted. A faulted state is never a successful end of a run (R246). -/
abbrev Safe (s : State) : Prop := s.fault = none

/-- The facts of every reachable state (R36 (b), (c)), `pc` at most 0x10FE and every stack slot at most 4094, with
the canonical form of memory, which is the model's own (log entry 10). That `sp` is at most 16 (R36 (a)) is held by its type. -/
structure Inv (s : State) : Prop where
  mem : s.mem.wf
  pc : s.pc.toNat ≤ 0x10FE
  stack : ∀ i : Fin 16, s.stack[i].toNat ≤ 4094

/-- The states some sequence of operations leads to, beginning with INIT (00_scope.md R9,
70_reset_and_hazards.md R281). -/
inductive Reachable : State → Prop where
  | init (font : Font) (draws : Nat) : Reachable (initialise font draws)
  | perform (o : HostOp) (s : State) : Reachable s → Reachable (perform o s).1

/-! ### Frames -/

/-- The parts of the state, one per field. -/
inductive Part where
  | V | pc | I | sp | stack | DT | ST | key | fb | mem | fault | draws
  deriving DecidableEq, Repr

/-- A part has the same value in both states; memory byte by byte. -/
def Part.same (p : Part) (s t : State) : Prop :=
  match p with
  | .V => ∀ r : RegIx, t.reg r = s.reg r
  | .pc => t.pc = s.pc
  | .I => t.I = s.I
  | .sp => t.sp = s.sp
  | .stack => t.stack = s.stack
  | .DT => t.DT = s.DT
  | .ST => t.ST = s.ST
  | .key => t.key = s.key
  | .fb => t.fb = s.fb
  | .mem => ∀ a : Nat, t.mem.read a = s.mem.read a
  | .fault => t.fault = s.fault
  | .draws => t.draws = s.draws

/-- Every part of the state but the named ones is unchanged (R16). -/
def OnlyChanges (parts : List Part) (s t : State) : Prop := ∀ p : Part, p ∉ parts → p.same s t

/-! ### Shapes of instructions -/

/-- The default advance, `(pc + 2) mod 65536` (R106, R107). -/
def Advances (s t : State) : Prop := t.pc.toNat = (s.pc.toNat + 2) % 65536

/-- A word selects a row by its mask and match value, and decodes to `build` of its own fields (R84). -/
def EncodedBy (mask pattern : Word) (build : Word → Instr) : Prop :=
  ∀ op : Word, op &&& mask = pattern → decode op = build op

/-- On every state the instruction completes, writes `value` to `V[x]`, advances, and changes nothing else. -/
def WritesOneRegister (i : Instr) (x : RegIx) (value : State → Nat) : Prop :=
  ∀ s : State, ∃ t, exec i s = .next t ∧ (t.reg x).toNat = value s ∧ (∀ r, r ≠ x → t.reg r = s.reg r) ∧
    Advances s t ∧ OnlyChanges [.V, .pc] s t

/-- On every state the instruction completes with `flag` in `V[0xF]`, `result` in `V[x]` unless `x = 0xF` (then
the flag has overwritten it, R18), advances, and changes nothing else. -/
def WritesResultAndFlag (i : Instr) (x : RegIx) (result flag : State → Nat) : Prop :=
  ∀ s : State, ∃ t, exec i s = .next t ∧ (t.reg VF).toNat = flag s ∧ (x ≠ VF → (t.reg x).toNat = result s) ∧
    (∀ r, r ≠ x → r ≠ VF → t.reg r = s.reg r) ∧ Advances s t ∧ OnlyChanges [.V, .pc] s t

/-- On every state the instruction completes, moves `pc` on by 4 when the condition holds and else by 2, and
changes nothing else (R106, R129). -/
def SkipsWhen (i : Instr) (cond : State → Prop) : Prop :=
  ∀ s : State, ∃ t, exec i s = .next t ∧ (cond s → t.pc.toNat = (s.pc.toNat + 4) % 65536) ∧
    (¬ cond s → Advances s t) ∧ OnlyChanges [.pc] s t

/-- On every state the instruction completes, sets `pc` to `target`, and changes nothing else. -/
def JumpsTo (i : Instr) (target : State → Nat) : Prop :=
  ∀ s : State, ∃ t, exec i s = .next t ∧ t.pc.toNat = target s ∧ OnlyChanges [.pc] s t

/-- On every state the instruction completes, sets `I` to `value`, advances, and changes nothing else. -/
def SetsIndex (i : Instr) (value : State → Nat) : Prop :=
  ∀ s : State, ∃ t, exec i s = .next t ∧ t.I.toNat = value s ∧ Advances s t ∧ OnlyChanges [.I, .pc] s t

/-- The faulted state: the latch holds the fault, everything else is as it was (R245). -/
def TakesFault (i : Instr) (s : State) (f : Fault) : Prop := exec i s = .next { s with fault := some f }

/-- The next step fetches, decodes and executes `i`: the machine is not faulted and the two bytes at `pc` make
a word that decodes to `i` (R100). -/
def Runs (s : State) (i : Instr) : Prop :=
  s.fault = none ∧ s.pc.toNat + 1 < 4096 ∧
    decode (wordOfBytes (s.mem.read s.pc.toNat) (s.mem.read (s.pc.toNat + 1))) = i

/-- The program-counter policy of each class of instruction, for a cycle that does not fault: the table of
40_cycle.md R106, written apart from the meanings. -/
def pcPolicy (i : Instr) (s : State) : Nat :=
  let pc := s.pc.toNat
  match i with
  | .jp nnn => nnn.toNat
  | .call nnn => nnn.toNat
  | .jpV0 nnn => (nnn.toNat + (s.reg 0).toNat) % 65536
  | .ret => if h : s.sp.val - 1 < 16 then (s.stack[s.sp.val - 1].toNat + 2) % 65536 else pc
  | .seKk x kk => if s.reg x = kk then (pc + 4) % 65536 else (pc + 2) % 65536
  | .sneKk x kk => if s.reg x ≠ kk then (pc + 4) % 65536 else (pc + 2) % 65536
  | .seR x y => if s.reg x = s.reg y then (pc + 4) % 65536 else (pc + 2) % 65536
  | .sneR x y => if s.reg x ≠ s.reg y then (pc + 4) % 65536 else (pc + 2) % 65536
  | .skp x => if ∃ k : RegIx, k.val = (s.reg x).toNat ∧ s.key[k] = true then (pc + 4) % 65536 else (pc + 2) % 65536
  | .sknp x => if ∃ k : RegIx, k.val = (s.reg x).toNat ∧ s.key[k] = true then (pc + 2) % 65536 else (pc + 4) % 65536
  | .ldVxK _ => if ∃ k : RegIx, s.key[k] = true then (pc + 2) % 65536 else pc
  | .cls | .ldKk _ _ | .addKk _ _ | .ldR _ _ | .or _ _ | .and _ _ | .xor _ _ | .addR _ _ | .sub _ _ | .shr _ _
  | .subn _ _ | .shl _ _ | .ldI _ | .rnd _ _ | .drw _ _ _ | .ldVxDt _ | .ldDtVx _ | .ldStVx _ | .addIVx _
  | .ldFVx _ | .ldBVx _ | .ldMemVx _ | .ldVxMem _ | .unmatched _ => (pc + 2) % 65536

end Sys2Proof.Machine
end

