-- ==== Sys2Proof/Certificates/Slice0/Obligations.lean ====
section
/-! DEFINITION. The statements for the provers, each a proposition about the model that formalises rules of the
spec. The shapes they share (WritesOneRegister, SkipsWhen, OnlyChanges, ...) are in Sys2Proof/Safety.lean; sums
and products on numbers are the unbounded ones of 00_scope.md R12, every narrowing written out. -/

open Sys2Proof Sys2Proof.Machine

/-! ### Encoding -/

/-- R81: the nibbles of a word, `kk` and `nnn`, and the same in bytes. -/
def Obligations.FieldsOfAnInstructionWord : Prop :=
  ∀ op : Word,
    op.toNat = (opN1 op).val * 4096 + (opX op).val * 256 + (opY op).val * 16 + (opN op).val ∧
    (opKk op).toNat = (opY op).val * 16 + (opN op).val ∧
    (opNnn op).toNat = (opX op).val * 256 + (opY op).val * 16 + (opN op).val ∧
    (highByte op).toNat = (opN1 op).val * 16 + (opX op).val ∧
    (lowByte op).toNat = (opY op).val * 16 + (opN op).val

/-- R84: the decoder, which dispatches on nibbles, agrees with the mask and match table of R86 on every word; no
word selects two rows; a word that selects none is unmatched. That `unmatched` carries the word is the model's own
choice (log entry 7). -/
def Obligations.DecoderAgreesWithOpcodeTable : Prop :=
  ∀ op : Word,
    (∀ r ∈ opcodeRows, r.selects op = true → mnemonicOf (decode op) = r.mnemonic) ∧
    (∀ r ∈ opcodeRows, ∀ q ∈ opcodeRows, r.selects op = true → q.selects op = true → r = q) ∧
    ((∀ r ∈ opcodeRows, r.selects op = false) → decode op = .unmatched op)

/-- The words R88 lists are exactly those that no row of R86 selects. -/
def Obligations.ListedUnmatchedWordsAreThoseNoRowSelects : Prop :=
  ∀ op : Word, isUnmatchedWord op = true ↔ ∀ r ∈ opcodeRows, r.selects op = false

/-- Every well-formed instruction, with every operand at every value, is what its encoding decodes to (R82, R83,
R92). The word of `unmatched` and the ignored `y` of SHR and SHL are operands by the model's own choice (log
entry 7). -/
def Obligations.DecodeOfEncodeIsTheInstruction : Prop :=
  ∀ i : Instr, i.wellFormed = true → decode (encode i) = i

/-- Every word decodes to a well-formed instruction (R84, R89) that encodes back to it: no bit is dropped. That the
bits of an UNMATCHED word and the ignored `y` of SHR and SHL are kept is the model's own choice (log entry 7), not
a rule of the spec. -/
def Obligations.EncodeOfDecodeIsTheWord : Prop :=
  ∀ op : Word, (decode op).wellFormed = true ∧ encode (decode op) = op

/-- A few words written out from the patterns of R86. -/
def Obligations.WordsDecodeAsTheTableWritesThem : Prop :=
  decode 0x00E0 = .cls ∧ decode 0x00EE = .ret ∧ decode 0x2ABC = .call 0xABC ∧ decode 0x3A10 = .seKk 0xA 0x10 ∧
  decode 0x8124 = .addR 0x1 0x2 ∧ decode 0x812E = .shl 0x1 0x2 ∧ decode 0xD12F = .drw 0x1 0x2 0xF ∧
  decode 0xE29E = .skp 0x2 ∧ decode 0xF365 = .ldVxMem 0x3 ∧ decode 0x5121 = .unmatched 0x5121

/-! ### The cycle -/

/-- R102: the fetched word is big-endian, at any `pc` from 0 to 4094, odd or even. -/
def Obligations.FetchIsBigEndianAtAnyPc : Prop :=
  ∀ s : State, s.pc.toNat ≤ 4094 → ∃ op, fetch s = some op ∧
    op.toNat = (s.mem.read s.pc.toNat).toNat * 256 + (s.mem.read (s.pc.toNat + 1)).toNat

/-- R100, R104, R105, R108, R109: a step of a machine that has not faulted is execute of the decoded instruction,
then the tick and nothing else; where execute takes a fault, the step ends there, without a tick. The count
`draws` is the model's own (log entry 2). -/
def Obligations.StepRunsTheDecodedInstruction : Prop :=
  ∀ (s t : State) (i : Instr), Runs s i → exec i s = .next t →
    (t.fault = none → ∃ u, step s = .next u ∧ u.DT.toNat = t.DT.toNat - 1 ∧ u.ST.toNat = t.ST.toNat - 1 ∧
      u.draws = t.draws + 1 ∧ OnlyChanges [.DT, .ST, .draws] t u) ∧
    (t.fault ≠ none → step s = .next t)

/-- R103: every `pc` from 4095 to 65535 takes FetchOutOfBounds, recording it, and changes nothing else. -/
def Obligations.FetchPastTheEndFaults : Prop :=
  ∀ (s : State) (rand : Byte), s.fault = none → 4096 ≤ s.pc.toNat + 1 →
    step s = .next { s with fault := some (.fetchOutOfBounds s.pc) } ∧
    cycleWith rand s = .next { s with fault := some (.fetchOutOfBounds s.pc) }

/-- R101 (the spec's decision D5): a faulted machine changes nothing and reports the same fault again. -/
def Obligations.FaultedMachineIsInert : Prop :=
  ∀ (s : State) (f : Fault) (rand : Byte), s.fault = some f →
    step s = .next s ∧ perform (.cycle rand) s = (s, .cycled (.faulted f))

/-- R108: the tick takes at most 1 from each timer, 0 is a floor, and nothing else changes; it is the last thing a
cycle does whose instruction took no fault. That such a cycle also counts the random byte it used (`nextDraw`) is
the model's own choice (log entry 2), not R108's. -/
def Obligations.TickLowersEachTimerByOneToAFloor : Prop :=
  (∀ s : State,
    (0 < s.DT.toNat → (tick s).DT.toNat + 1 = s.DT.toNat) ∧ (s.DT.toNat = 0 → (tick s).DT.toNat = 0) ∧
    (0 < s.ST.toNat → (tick s).ST.toNat + 1 = s.ST.toNat) ∧ (s.ST.toNat = 0 → (tick s).ST.toNat = 0) ∧
    OnlyChanges [.DT, .ST] s (tick s)) ∧
  ∀ (s t : State) (i : Instr), Runs s i → exec i s = .next t → t.fault = none → step s = .next (nextDraw (tick t))

/-- R111, R245, R246 (the spec's decisions D4 to D6): whatever the state and the random byte, a cycle has a next
state; it either reports Ok and has not faulted, or reports a fault and has changed nothing but the latch. -/
def Obligations.CycleIsOkOrChangesOnlyTheLatch : Prop :=
  ∀ (s : State) (rand : Byte), ∃ t, cycleWith rand s = .next t ∧
    perform (.cycle rand) s = (t, .cycled (cycleResult t)) ∧
    ((t.fault = none ∧ cycleResult t = .ok) ∨
      ∃ f, t = { s with fault := some f } ∧ cycleResult t = .faulted f)

/-- R112: the random byte makes no difference to a cycle that does not run RND. That a step is the cycle with the
byte `Config.rand s.draws` of the free source is the model's own choice (log entry 2), not a rule of the spec. -/
def Obligations.RandomByteReachesOnlyRnd : Prop :=
  ∀ (s : State) (r q : Byte), step s = cycleWith (Config.rand s.draws) s ∧
    ((∀ x kk, ¬ Runs s (.rnd x kk)) → cycleWith r s = cycleWith q s)

/-- R240, R247: an instruction takes no fault but its own, with the information recorded there. The faults'
conditions and what they record are the spec's own decisions D3 (the stack), D6 (names and information), D7 (the
key index) and D8 (the data range); log entry 6. -/
def Obligations.EachInstructionTakesOnlyItsOwnFault : Prop :=
  ∀ (i : Instr) (s t : State) (f : Fault), s.fault = none → exec i s = .next t → t.fault = some f →
    match f with
    | .fetchOutOfBounds _ => False
    | .memIndexOutOfRange base last pc => base = s.I ∧ pc = s.pc ∧ 4095 < last ∧
        ((∃ x y n, i = .drw x y n ∧ 1 ≤ n.val ∧ last = s.I.toNat + n.val - 1) ∨
          (∃ x, i = .ldBVx x ∧ last = s.I.toNat + 2) ∨
          (∃ x, (i = .ldMemVx x ∨ i = .ldVxMem x) ∧ last = s.I.toNat + x.val))
    | .keyIndexOutOfRange v pc => pc = s.pc ∧ 16 ≤ v.toNat ∧ ∃ x, (i = .skp x ∨ i = .sknp x) ∧ v = s.reg x
    | .stackOverflow pc => pc = s.pc ∧ s.sp.val = 16 ∧ ∃ nnn, i = .call nnn
    | .stackUnderflow pc => pc = s.pc ∧ s.sp.val = 0 ∧ i = .ret

/-- R106: every instruction that does not fault follows the program-counter policy of its class, reduced modulo
65536 (R107, the spec's decision D11); one that faults leaves `pc` at the faulting instruction (its D4; log
entry 6). -/
def Obligations.PcFollowsThePolicyOfItsClass : Prop :=
  ∀ (i : Instr) (s t : State), s.fault = none → exec i s = .next t →
    (t.fault = none → t.pc.toNat = pcPolicy i s) ∧ (t.fault ≠ none → t.pc = s.pc)

/-- R37, over all instructions: which of them can change which part of the state; none changes a key flag, nor the
model's own count `draws` (log entry 2). -/
def Obligations.EachPartHasOnlyItsWriters : Prop :=
  ∀ (i : Instr) (s t : State), exec i s = .next t →
    (t.I ≠ s.I → (∃ nnn, i = .ldI nnn) ∨ (∃ x, i = .addIVx x) ∨ ∃ x, i = .ldFVx x) ∧
    (t.sp ≠ s.sp → i = .ret ∨ ∃ nnn, i = .call nnn) ∧
    (t.stack ≠ s.stack → ∃ nnn, i = .call nnn) ∧
    (t.DT ≠ s.DT → ∃ x, i = .ldDtVx x) ∧
    (t.ST ≠ s.ST → ∃ x, i = .ldStVx x) ∧
    (t.fb ≠ s.fb → i = .cls ∨ ∃ x y n, i = .drw x y n) ∧
    (t.mem ≠ s.mem → (∃ x, i = .ldBVx x) ∨ ∃ x, i = .ldMemVx x) ∧
    t.key = s.key ∧ t.draws = s.draws

/-- R23: `V[0xF]` is changed only by the six flag-setting instructions, or as the plain destination of an
instruction whose `x` is 0xF. -/
def Obligations.FlagRegisterHasOnlyItsWriters : Prop :=
  ∀ (i : Instr) (s t : State), exec i s = .next t → t.reg VF ≠ s.reg VF →
    (∃ x y, i = .addR x y ∨ i = .sub x y ∨ i = .shr x y ∨ i = .subn x y ∨ i = .shl x y) ∨
    (∃ x y n, i = .drw x y n) ∨
    (∃ kk, i = .ldKk VF kk ∨ i = .addKk VF kk ∨ i = .rnd VF kk) ∨
    (∃ y, i = .ldR VF y ∨ i = .or VF y ∨ i = .and VF y ∨ i = .xor VF y) ∨
    i = .ldVxDt VF ∨ i = .ldVxK VF ∨ i = .ldVxMem VF

/-! ### Control flow -/

/-- R122. -/
def Obligations.JumpSetsPcToItsAddress : Prop :=
  EncodedBy 0xF000 0x1000 (fun op => .jp (opNnn op)) ∧ ∀ nnn, JumpsTo (.jp nnn) fun _ => nnn.toNat

/-- R124 (the spec's decision D11: no reduction to 12 bits). -/
def Obligations.JumpWithOffsetAddsV0 : Prop :=
  EncodedBy 0xF000 0xB000 (fun op => .jpV0 (opNnn op)) ∧
    ∀ nnn, JumpsTo (.jpV0 nnn) fun s => (nnn.toNat + (s.reg 0).toNat) % 65536

/-- R123 (the spec's decision D3 for the full stack): CALL pushes its own address; at `sp = 16` it takes
StackOverflow. -/
def Obligations.CallPushesItsOwnAddress : Prop :=
  EncodedBy 0xF000 0x2000 (fun op => .call (opNnn op)) ∧
  ∀ (nnn : BitVec 12) (s : State),
    (s.sp.val < 16 → ∃ t, exec (.call nnn) s = .next t ∧ t.sp.val = s.sp.val + 1 ∧ t.pc.toNat = nnn.toNat ∧
      (∀ i : Fin 16, t.stack[i] = if i.val = s.sp.val then s.pc else s.stack[i]) ∧
      OnlyChanges [.stack, .sp, .pc] s t) ∧
    (s.sp.val = 16 → TakesFault (.call nnn) s (.stackOverflow s.pc))

/-- R121 (the spec's decision D3 for the empty stack): RET resumes 2 after the address in the slot below `sp`,
which keeps its value; at `sp = 0` it takes StackUnderflow. -/
def Obligations.ReturnPopsAndAddsTwo : Prop :=
  EncodedBy 0xFFFF 0x00EE (fun _ => .ret) ∧
  ∀ s : State,
    (∀ i : Fin 16, s.sp.val = i.val + 1 → ∃ t, exec .ret s = .next t ∧ t.sp.val = i.val ∧
      t.pc.toNat = (s.stack[i].toNat + 2) % 65536 ∧ OnlyChanges [.sp, .pc] s t) ∧
    (s.sp.val = 0 → TakesFault .ret s (.stackUnderflow s.pc))

/-- R121, R123, R130: a return with the stack a call left resumes after that call, with the stack pointer of
before it, and passes everything else through. -/
def Obligations.ReturnResumesAfterItsCall : Prop :=
  ∀ (nnn : BitVec 12) (s t u : State), s.sp.val < 16 → exec (.call nnn) s = .next t →
    u.sp = t.sp → u.stack = t.stack →
    ∃ w, exec .ret u = .next w ∧ Advances s w ∧ w.sp = s.sp ∧ OnlyChanges [.sp, .pc] u w

/-- R125, R126, R127, R128: the skips on registers and immediates; in the families of the last two, a last nibble
other than 0 is UNMATCHED. -/
def Obligations.RegisterSkipsTestTheirCondition : Prop :=
  EncodedBy 0xF000 0x3000 (fun op => .seKk (opX op) (opKk op)) ∧
  EncodedBy 0xF000 0x4000 (fun op => .sneKk (opX op) (opKk op)) ∧
  EncodedBy 0xF00F 0x5000 (fun op => .seR (opX op) (opY op)) ∧
  EncodedBy 0xF00F 0x9000 (fun op => .sneR (opX op) (opY op)) ∧
  (∀ op : Word, (opN1 op).val = 5 ∨ (opN1 op).val = 9 → (opN op).val ≠ 0 → decode op = .unmatched op) ∧
  ∀ (x y : RegIx) (kk : Byte),
    SkipsWhen (.seKk x kk) (fun s => (s.reg x).toNat = kk.toNat) ∧
    SkipsWhen (.sneKk x kk) (fun s => (s.reg x).toNat ≠ kk.toNat) ∧
    SkipsWhen (.seR x y) (fun s => (s.reg x).toNat = (s.reg y).toNat) ∧
    SkipsWhen (.sneR x y) (fun s => (s.reg x).toNat ≠ (s.reg y).toNat)

/-! ### Loads, arithmetic, logic, random -/

/-- R141, R143: the plain loads. -/
def Obligations.LoadsWriteTheirRegister : Prop :=
  EncodedBy 0xF000 0x6000 (fun op => .ldKk (opX op) (opKk op)) ∧
  EncodedBy 0xF00F 0x8000 (fun op => .ldR (opX op) (opY op)) ∧
  ∀ (x y : RegIx) (kk : Byte),
    WritesOneRegister (.ldKk x kk) x (fun _ => kk.toNat) ∧
    WritesOneRegister (.ldR x y) x (fun s => (s.reg y).toNat)

/-- R142: the one addition that writes no flag. -/
def Obligations.AddImmediateWrapsWithoutFlag : Prop :=
  EncodedBy 0xF000 0x7000 (fun op => .addKk (opX op) (opKk op)) ∧
  ∀ (x : RegIx) (kk : Byte), WritesOneRegister (.addKk x kk) x fun s => ((s.reg x).toNat + kk.toNat) % 256

/-- R144, R145, R146: bitwise logic writes no flag. -/
def Obligations.LogicIsBitwiseWithoutFlag : Prop :=
  EncodedBy 0xF00F 0x8001 (fun op => .or (opX op) (opY op)) ∧
  EncodedBy 0xF00F 0x8002 (fun op => .and (opX op) (opY op)) ∧
  EncodedBy 0xF00F 0x8003 (fun op => .xor (opX op) (opY op)) ∧
  ∀ x y : RegIx,
    WritesOneRegister (.or x y) x (fun s => (s.reg x).toNat ||| (s.reg y).toNat) ∧
    WritesOneRegister (.and x y) x (fun s => (s.reg x).toNat &&& (s.reg y).toNat) ∧
    WritesOneRegister (.xor x y) x (fun s => (s.reg x).toNat ^^^ (s.reg y).toNat)

/-- R147. -/
def Obligations.AddWritesSumAndCarry : Prop :=
  EncodedBy 0xF00F 0x8004 (fun op => .addR (opX op) (opY op)) ∧
  ∀ x y : RegIx, WritesResultAndFlag (.addR x y) x (fun s => ((s.reg x).toNat + (s.reg y).toNat) % 256)
    (fun s => if 256 ≤ (s.reg x).toNat + (s.reg y).toNat then 1 else 0)

/-- R148, R150: both subtractions wrap, and their flag is NOT borrow, so 1 when the operands are equal. -/
def Obligations.SubtractionsWriteDifferenceAndNotBorrow : Prop :=
  EncodedBy 0xF00F 0x8005 (fun op => .sub (opX op) (opY op)) ∧
  EncodedBy 0xF00F 0x8007 (fun op => .subn (opX op) (opY op)) ∧
  ∀ x y : RegIx,
    WritesResultAndFlag (.sub x y) x
      (fun s => if (s.reg x).toNat < (s.reg y).toNat then (s.reg x).toNat + 256 - (s.reg y).toNat
        else (s.reg x).toNat - (s.reg y).toNat)
      (fun s => if (s.reg x).toNat < (s.reg y).toNat then 0 else 1) ∧
    WritesResultAndFlag (.subn x y) x
      (fun s => if (s.reg y).toNat < (s.reg x).toNat then (s.reg y).toNat + 256 - (s.reg x).toNat
        else (s.reg y).toNat - (s.reg x).toNat)
      (fun s => if (s.reg y).toNat < (s.reg x).toNat then 0 else 1)

/-- R149, R151: the shifts act on `V[x]`, whatever `y` is, and the flag is the bit shifted out. -/
def Obligations.ShiftsWriteResultAndShiftedOutBit : Prop :=
  EncodedBy 0xF00F 0x8006 (fun op => .shr (opX op) (opY op)) ∧
  EncodedBy 0xF00F 0x800E (fun op => .shl (opX op) (opY op)) ∧
  ∀ x y : RegIx,
    WritesResultAndFlag (.shr x y) x (fun s => (s.reg x).toNat / 2) (fun s => (s.reg x).toNat % 2) ∧
    WritesResultAndFlag (.shl x y) x (fun s => 2 * (s.reg x).toNat % 256) (fun s => (s.reg x).toNat / 128)

/-- R160 (the spec's decision D18): for every random byte, and in particular for that of the free source (log
entry 2), RND writes its bitwise AND with `kk` and no flag. -/
def Obligations.RndMasksAnyRandomByte : Prop :=
  EncodedBy 0xF000 0xC000 (fun op => .rnd (opX op) (opKk op)) ∧
  ∀ (x : RegIx) (kk : Byte),
    WritesOneRegister (.rnd x kk) x (fun s => (Config.rand s.draws).toNat &&& kk.toNat) ∧
    ∀ (rand : Byte) (s : State), ∃ t, executeWith rand (.rnd x kk) s = .next t ∧
      (t.reg x).toNat = rand.toNat &&& kk.toNat ∧ (∀ r, r ≠ x → t.reg r = s.reg r) ∧
      Advances s t ∧ OnlyChanges [.V, .pc] s t

/-! ### The index register and memory -/

/-- R171, R172, R173: the three instructions that set `I`; none sets a flag. -/
def Obligations.IndexInstructionsSetI : Prop :=
  EncodedBy 0xF000 0xA000 (fun op => .ldI (opNnn op)) ∧
  EncodedBy 0xF0FF 0xF01E (fun op => .addIVx (opX op)) ∧
  EncodedBy 0xF0FF 0xF029 (fun op => .ldFVx (opX op)) ∧
  ∀ (nnn : BitVec 12) (x : RegIx),
    SetsIndex (.ldI nnn) (fun _ => nnn.toNat) ∧
    SetsIndex (.addIVx x) (fun s => (s.I.toNat + (s.reg x).toNat) % 65536) ∧
    SetsIndex (.ldFVx x) (fun s => 5 * ((s.reg x).toNat % 16))

/-- R174 (the spec's decision D8 for the fault): the decimal digits at `I`, `I+1`, `I+2`, or the fault and nothing
written. -/
def Obligations.DecimalDigitsAreStored : Prop :=
  EncodedBy 0xF0FF 0xF033 (fun op => .ldBVx (opX op)) ∧
  ∀ (x : RegIx) (s : State),
    (s.I.toNat + 2 ≤ 4095 → ∃ t, exec (.ldBVx x) s = .next t ∧
      (t.mem.read s.I.toNat).toNat = (s.reg x).toNat / 100 ∧
      (t.mem.read (s.I.toNat + 1)).toNat = (s.reg x).toNat / 10 % 10 ∧
      (t.mem.read (s.I.toNat + 2)).toNat = (s.reg x).toNat % 10 ∧
      (∀ a, a < s.I.toNat ∨ s.I.toNat + 2 < a → t.mem.read a = s.mem.read a) ∧
      Advances s t ∧ OnlyChanges [.mem, .pc] s t) ∧
    (4095 < s.I.toNat + 2 → TakesFault (.ldBVx x) s (.memIndexOutOfRange s.I (s.I.toNat + 2) s.pc))

/-- R175 (the spec's decision D8 for the fault): `V[0]` to `V[x]` at `I` to `I + x`, or the fault and nothing
written. `I` is not changed. -/
def Obligations.RegisterBlockIsStored : Prop :=
  EncodedBy 0xF0FF 0xF055 (fun op => .ldMemVx (opX op)) ∧
  ∀ (x : RegIx) (s : State),
    (s.I.toNat + x.val ≤ 4095 → ∃ t, exec (.ldMemVx x) s = .next t ∧
      (∀ r : RegIx, r ≤ x → t.mem.read (s.I.toNat + r.val) = s.reg r) ∧
      (∀ a, a < s.I.toNat ∨ s.I.toNat + x.val < a → t.mem.read a = s.mem.read a) ∧
      Advances s t ∧ OnlyChanges [.mem, .pc] s t) ∧
    (4095 < s.I.toNat + x.val → TakesFault (.ldMemVx x) s (.memIndexOutOfRange s.I (s.I.toNat + x.val) s.pc))

/-- R176 (the spec's decision D8 for the fault): `V[0]` to `V[x]` from `I` to `I + x`, the registers above kept, or
the fault and nothing written. `I` and memory are not changed. -/
def Obligations.RegisterBlockIsLoaded : Prop :=
  EncodedBy 0xF0FF 0xF065 (fun op => .ldVxMem (opX op)) ∧
  ∀ (x : RegIx) (s : State),
    (s.I.toNat + x.val ≤ 4095 → ∃ t, exec (.ldVxMem x) s = .next t ∧
      (∀ r : RegIx, r ≤ x → t.reg r = s.mem.read (s.I.toNat + r.val)) ∧
      (∀ r : RegIx, x < r → t.reg r = s.reg r) ∧ Advances s t ∧ OnlyChanges [.V, .pc] s t) ∧
    (4095 < s.I.toNat + x.val → TakesFault (.ldVxMem x) s (.memIndexOutOfRange s.I (s.I.toNat + x.val) s.pc))

/-- The round trip of R175 and R176: a load after a store from the same `I` recovers the stored registers, whatever
the registers held in between. -/
def Obligations.StoreThenLoadRecoversRegisters : Prop :=
  ∀ (x : RegIx) (s t : State) (v : Vector Byte 16), s.I.toNat + x.val ≤ 4095 → exec (.ldMemVx x) s = .next t →
    ∃ w, exec (.ldVxMem x) { t with V := v } = .next w ∧ w.I = s.I ∧
      (∀ r : RegIx, r ≤ x → w.reg r = s.reg r) ∧ (∀ r : RegIx, x < r → w.reg r = v[r])

/-- R64, R286: bytes stored by LD_MEM_VX, or loaded by the host, are what a fetch from them gives. -/
def Obligations.StoredBytesAreFetched : Prop :=
  (∀ (x : RegIx) (s t : State) (i j : RegIx) (p : Word), s.I.toNat + x.val ≤ 4095 → j.val = i.val + 1 → j ≤ x →
    p.toNat = s.I.toNat + i.val → exec (.ldMemVx x) s = .next t →
    fetch { t with pc := p } = some (wordOfBytes (s.reg i) (s.reg j))) ∧
  ∀ (s : State) (hi lo : Byte) (rest : List Byte), 0x200 ≤ s.pc.toNat → s.pc.toNat + 2 + rest.length ≤ 4096 →
    fetch (load s.pc.toNat (hi :: lo :: rest) s).1 = some (wordOfBytes hi lo)

/-- Two memories in canonical form that read alike are the same data (log entry 10). -/
def Obligations.CanonicalMemoriesThatReadAlikeAreEqual : Prop :=
  ∀ m m' : Memory, m.wf → m'.wf → (∀ a, m.read a = m'.read a) → m = m'

/-! ### Display -/

/-- R191: every cell off, `V[0xF]` unchanged. -/
def Obligations.ClearTurnsEveryCellOff : Prop :=
  EncodedBy 0xFFFF 0x00E0 (fun _ => .cls) ∧
  ∀ s : State, ∃ t, exec .cls s = .next t ∧ (∀ r c, t.fb.cell r c = false) ∧ Advances s t ∧
    OnlyChanges [.fb, .pc] s t

/-- R192, R193, R195 (the bit order is the spec's R194, decision D16, log entry 5; the per-pixel wrap and `n = 0` its
decision D19; the fault its decision D8): exactly the target cells of the set sprite bits toggle, and `V[0xF]` says
whether one of them was on. -/
def Obligations.DrawTogglesExactlyItsTargets : Prop :=
  EncodedBy 0xF000 0xD000 (fun op => .drw (opX op) (opY op) (opN op)) ∧
  ∀ (x y : RegIx) (n : Fin 16) (s : State),
    let hits := fun (row : Fin 32) (col : Fin 64) => ∃ r c : Nat, r < n.val ∧ c < 8 ∧
      (s.mem.read (s.I.toNat + r)).toNat.testBit (7 - c) = true ∧
      row.val = ((s.reg y).toNat + r) % 32 ∧ col.val = ((s.reg x).toNat + c) % 64
    (n.val = 0 ∨ s.I.toNat + n.val - 1 ≤ 4095 → ∃ t, exec (.drw x y n) s = .next t ∧
      (∀ row col, hits row col → t.fb.cell row col = !s.fb.cell row col) ∧
      (∀ row col, ¬ hits row col → t.fb.cell row col = s.fb.cell row col) ∧
      ((∃ row col, hits row col ∧ s.fb.cell row col = true) → (t.reg VF).toNat = 1) ∧
      ((∀ row col, hits row col → s.fb.cell row col = false) → (t.reg VF).toNat = 0) ∧
      (∀ r, r ≠ VF → t.reg r = s.reg r) ∧ Advances s t ∧ OnlyChanges [.V, .pc, .fb] s t) ∧
    (n.val ≠ 0 → 4095 < s.I.toNat + n.val - 1 →
      TakesFault (.drw x y n) s (.memIndexOutOfRange s.I (s.I.toNat + n.val - 1) s.pc))

/-- R196: the same draw twice restores the framebuffer, and the second reports a collision exactly when some set
sprite bit's cell was off before the first. Which cell a sprite bit lands on rests on the bit order (R194, the
spec's decision D16, log entry 5) and on the per-pixel wrap (R193, its decision D19); the range that fits is its
D8 (log entry 6). -/
def Obligations.DrawingTwiceRestoresTheFramebuffer : Prop :=
  ∀ (x y : RegIx) (n : Fin 16) (s t : State), x ≠ VF → y ≠ VF →
    (n.val = 0 ∨ s.I.toNat + n.val - 1 ≤ 4095) → exec (.drw x y n) s = .next t →
    ∃ u, exec (.drw x y n) t = .next u ∧ u.fb = s.fb ∧
      ((u.reg VF).toNat = 1 ↔ ∃ (row : Fin 32) (col : Fin 64) (r c : Nat), r < n.val ∧ c < 8 ∧
        (s.mem.read (s.I.toNat + r)).toNat.testBit (7 - c) = true ∧
        row.val = ((s.reg y).toNat + r) % 32 ∧ col.val = ((s.reg x).toNat + c) % 64 ∧
        s.fb.cell row col = false)

/-! ### Keypad and timers -/

/-- R201, R202 (the spec's decision D7 for the fault): the skips on a key; the whole of `V[x]` is the index. -/
def Obligations.KeySkipsTestTheIndexedKey : Prop :=
  EncodedBy 0xF0FF 0xE09E (fun op => .skp (opX op)) ∧
  EncodedBy 0xF0FF 0xE0A1 (fun op => .sknp (opX op)) ∧
  ∀ (x : RegIx) (s : State),
    (∀ k : RegIx, (s.reg x).toNat = k.val →
      (∃ t, exec (.skp x) s = .next t ∧
        t.pc.toNat = (s.pc.toNat + (if s.key[k] = true then 4 else 2)) % 65536 ∧ OnlyChanges [.pc] s t) ∧
      (∃ t, exec (.sknp x) s = .next t ∧
        t.pc.toNat = (s.pc.toNat + (if s.key[k] = true then 2 else 4)) % 65536 ∧ OnlyChanges [.pc] s t)) ∧
    (15 < (s.reg x).toNat → TakesFault (.skp x) s (.keyIndexOutOfRange (s.reg x) s.pc) ∧
      TakesFault (.sknp x) s (.keyIndexOutOfRange (s.reg x) s.pc))

/-- R203: with a key pressed the least pressed index is written; with none nothing is written, and the cycle is an
ordinary one that ticks. -/
def Obligations.KeyWaitTakesTheLeastKeyOrWaits : Prop :=
  EncodedBy 0xF0FF 0xF00A (fun op => .ldVxK (opX op)) ∧
  ∀ (x : RegIx) (s : State),
    (∀ k : RegIx, s.key[k] = true → (∀ j : RegIx, j < k → s.key[j] = false) →
      ∃ t, exec (.ldVxK x) s = .next t ∧ (t.reg x).toNat = k.val ∧ (∀ r, r ≠ x → t.reg r = s.reg r) ∧
        Advances s t ∧ OnlyChanges [.V, .pc] s t) ∧
    ((∀ k : RegIx, s.key[k] = false) → exec (.ldVxK x) s = .next s ∧
      (Runs s (.ldVxK x) → ∃ t, step s = .next t ∧ t.DT.toNat = s.DT.toNat - 1 ∧ t.ST.toNat = s.ST.toNat - 1 ∧
        OnlyChanges [.DT, .ST, .draws] s t))

/-- R203, R285, R290: a machine that waits for a key while none is pressed goes on for any number of cycles with the
timers ticking, and only they move (and the model's own count `draws`, log entry 2). -/
def Obligations.WaitingMachineOnlyTicks : Prop :=
  ∀ (x : RegIx) (s : State) (n : Nat), Runs s (.ldVxK x) → (∀ k : RegIx, s.key[k] = false) →
    ∃ t : State, Host.Core.run Sys2Proof.core n s = .next t ∧ t.DT.toNat = s.DT.toNat - n ∧
      t.ST.toNat = s.ST.toNat - n ∧ OnlyChanges [.DT, .ST, .draws] s t

/-- R204, R205, R206, with the tick of the same cycle (R109): LD_VX_DT reads the timer before the tick, and a timer
that is written has lost 1 by the end of its own cycle. -/
def Obligations.TimerInstructionsMoveBeforeTheTick : Prop :=
  EncodedBy 0xF0FF 0xF007 (fun op => .ldVxDt (opX op)) ∧
  EncodedBy 0xF0FF 0xF015 (fun op => .ldDtVx (opX op)) ∧
  EncodedBy 0xF0FF 0xF018 (fun op => .ldStVx (opX op)) ∧
  ∀ x : RegIx, WritesOneRegister (.ldVxDt x) x (fun s => s.DT.toNat) ∧
    ∀ s : State,
      (∃ t, exec (.ldDtVx x) s = .next t ∧ t.DT = s.reg x ∧ Advances s t ∧ OnlyChanges [.DT, .pc] s t) ∧
      (∃ t, exec (.ldStVx x) s = .next t ∧ t.ST = s.reg x ∧ Advances s t ∧ OnlyChanges [.ST, .pc] s t) ∧
      (Runs s (.ldVxDt x) → ∃ t, step s = .next t ∧ t.reg x = s.DT ∧ t.DT.toNat = s.DT.toNat - 1 ∧
        t.ST.toNat = s.ST.toNat - 1) ∧
      (Runs s (.ldDtVx x) → ∃ t, step s = .next t ∧ t.DT.toNat = (s.reg x).toNat - 1 ∧
        t.ST.toNat = s.ST.toNat - 1) ∧
      (Runs s (.ldStVx x) → ∃ t, step s = .next t ∧ t.ST.toNat = (s.reg x).toNat - 1 ∧
        t.DT.toNat = s.DT.toNat - 1)

/-- R206, R37: no instruction reads `ST`. Starting from another `ST`, LD_ST_VX ends in the same state, and every
other instruction ends in the same state but for that `ST`. -/
def Obligations.NoInstructionReadsTheSoundTimer : Prop :=
  ∀ (s : State) (v : Byte),
    (∀ x : RegIx, exec (.ldStVx x) { s with ST := v } = exec (.ldStVx x) s) ∧
    ∀ (i : Instr) (t : State), (∀ x, i ≠ .ldStVx x) → exec i s = .next t →
      exec i { s with ST := v } = .next { t with ST := v }

/-! ### The fallback -/

/-- R110: every unmatched word is a no-op that advances `pc`, never an error. -/
def Obligations.UnmatchedWordsOnlyAdvance : Prop :=
  ∀ op : Word, (∀ r ∈ opcodeRows, r.selects op = false) → decode op = .unmatched op ∧
    ∀ s : State, ∃ t, exec (.unmatched op) s = .next t ∧ Advances s t ∧ OnlyChanges [.pc] s t

/-! ### Reset, invariants, host operations -/

/-- R35, R280: every piece of state after INIT, for every FONT, whatever the state before; the first fetch is from
0x200. -/
def Obligations.InitSetsEveryPieceOfState : Prop :=
  ∀ (font : Font) (before : State), ∃ s, perform (.init font) before = (s, .none) ∧
    (∀ r : RegIx, s.reg r = 0) ∧ s.pc.toNat = 0x200 ∧ s.I = 0 ∧ s.sp.val = 0 ∧
    (∀ i : Fin 16, s.stack[i] = 0) ∧ s.DT = 0 ∧ s.ST = 0 ∧ (∀ k : RegIx, s.key[k] = false) ∧
    (∀ r c, s.fb.cell r c = false) ∧ (∀ i : Fin 80, s.mem.read i.val = font[i]) ∧
    (∀ a, 80 ≤ a → a < 4096 → s.mem.read a = 0) ∧ s.fault = none ∧
    fetch s = some (wordOfBytes (s.mem.read 0x200) (s.mem.read 0x201))

/-- The model's reset state is INIT with the default FONT (log entry 1) and lists no memory. -/
def Obligations.ResetIsInitWithTheDefaultFont : Prop :=
  State.reset = initialise Config.font State.reset.draws ∧ State.reset.mem = [] ∧ ∀ a, State.reset.mem.read a = Config.resetByte a

/-- The invariant holds after INIT with any FONT, and at the model's reset. Its bounds on `pc` and the stack slots
are R36's (b) and (c); that memory is in canonical form is the model's own choice (log entry 10). -/
def Obligations.InvariantHoldsAtReset : Prop :=
  Inv State.reset ∧ ∀ (font : Font) (draws : Nat), Inv (initialise font draws)

/-- Every step keeps the invariant: `pc` at most 0x10FE and every stack slot at most 4094 (R36), and memory in
canonical form (the model's own choice, log entry 10). -/
def Obligations.EveryStepKeepsTheInvariant : Prop :=
  ∀ s t : State, Inv s → step s = .next t → Inv t

/-- R36: the invariant holds in every state that any sequence of host operations leads to, for any FONT and any
random bytes. Its clause on the canonical form of memory is the model's own choice (log entry 10). -/
def Obligations.ReachableStatesMeetTheInvariant : Prop :=
  ∀ s : State, Reachable s → Inv s

/-- R222, R223 (the spec's decision D13 for the lower bound): a load that fits writes exactly its bytes and nothing
but memory; any other is refused whole. -/
def Obligations.LoadWritesExactlyItsBytes : Prop :=
  ∀ (offset : Nat) (bytes : List Byte) (s : State),
    (0x200 ≤ offset → offset + bytes.length ≤ 4096 → (load offset bytes s).2 = .ok ∧
      (∀ i : Fin bytes.length, (load offset bytes s).1.mem.read (offset + i.val) = bytes[i]) ∧
      (∀ a, a < offset ∨ offset + bytes.length ≤ a → (load offset bytes s).1.mem.read a = s.mem.read a) ∧
      OnlyChanges [.mem] s (load offset bytes s).1) ∧
    (offset < 0x200 ∨ 4096 < offset + bytes.length → load offset bytes s = (s, .loadOutOfBounds))

/-- R224, R225: the key operations set one flag and change nothing else, and nothing but them and INIT writes a
flag. -/
def Obligations.OnlyKeyOperationsSetKeys : Prop :=
  ∀ (k : RegIx) (s : State),
    (∀ j : RegIx, (perform (.keyDown k) s).1.key[j] = if j = k then true else s.key[j]) ∧
    OnlyChanges [.key] s (perform (.keyDown k) s).1 ∧
    (∀ j : RegIx, (perform (.keyUp k) s).1.key[j] = if j = k then false else s.key[j]) ∧
    OnlyChanges [.key] s (perform (.keyUp k) s).1 ∧
    ∀ o : HostOp, (∀ j, o ≠ .keyDown j) → (∀ j, o ≠ .keyUp j) → (∀ font, o ≠ .init font) →
      (perform o s).1.key = s.key

/-- R226, R227: the two accessors change nothing; element `64*r + c` of the flat framebuffer is `fb[r][c]`. -/
def Obligations.AccessorsReadWithoutChange : Prop :=
  ∀ s : State, perform .timerRead s = (s, .timers s.DT s.ST) ∧
    ∃ cells : Vector Bool 2048, perform .fbRead s = (s, .framebuffer cells) ∧
      ∀ (r : Fin 32) (c : Fin 64) (i : Fin 2048), i.val = 64 * r.val + c.val → cells[i] = s.fb.cell r c

/-- R229, R246 (the spec's decision D5): on a faulted machine no operation but INIT clears the fault, CYCLE does
nothing, and every other one does exactly what it does on a healthy machine. -/
def Obligations.OnlyInitClearsAFault : Prop :=
  ∀ (s : State) (f : Fault) (o : HostOp), s.fault = some f → (∀ font, o ≠ .init font) →
    (perform o s).1.fault = some f ∧ (∀ rand, o = .cycle rand → (perform o s).1 = s) ∧
    ((∀ rand, o ≠ .cycle rand) →
      perform o s = ({ (perform o { s with fault := none }).1 with fault := some f },
        (perform o { s with fault := none }).2))

/-- A word placed for the next step is the one it fetches, from any state, and nothing else changes where the
machine could fetch already (log entry 4). -/
def Obligations.PlacedWordIsFetched : Prop :=
  ∀ (s : State) (op : Word),
    fetch (s.withFetchWord 16 op.toNat) = some op ∧ (s.withFetchWord 16 op.toNat).fault = none ∧
    decodeTableWord 16 op.toNat = some (decode op) ∧
    (s.fault = none → s.pc.toNat + 1 < 4096 →
      OnlyChanges [.mem] s (s.withFetchWord 16 op.toNat) ∧
      ∀ a, a ≠ s.pc.toNat → a ≠ s.pc.toNat + 1 → (s.withFetchWord 16 op.toNat).mem.read a = s.mem.read a)
end

