-- ==== Sys2Proof/Laws/Memory.lean ====
section
/-! SUPPORT. The laws of memory: what a read gives after every memory operation, and that every operation keeps
the canonical form. -/

namespace Sys2Proof.Machine

theorem Memory.read_remove_self (m : Memory) (a : Nat) : (m.remove a).read a = Config.resetByte a := by
  induction m with
  | nil => rfl
  | cons c rest ih =>
    obtain ⟨b, w⟩ := c
    by_cases h : b = a
    · subst h; simpa [Memory.remove] using ih
    · simpa [Memory.remove, Memory.read, h] using ih

theorem Memory.read_remove_of_ne (m : Memory) {a k : Nat} (h : k ≠ a) : (m.remove a).read k = m.read k := by
  induction m with
  | nil => rfl
  | cons c rest ih =>
    obtain ⟨b, w⟩ := c
    by_cases hb : b = a
    · subst hb; simpa [Memory.remove, Memory.read, Ne.symm h] using ih
    · have : Memory.remove ((b, w) :: rest) a = (b, w) :: Memory.remove rest a := by simp [Memory.remove, hb]
      rw [this]; simp [Memory.read, ih]

theorem Memory.read_insert_self (m : Memory) (a : Nat) (v : Byte) (h : ∀ c ∈ m, c.1 ≠ a) :
    (m.insert a v).read a = v := by
  induction m with
  | nil => simp [Memory.insert, Memory.read]
  | cons c rest ih =>
    obtain ⟨b, w⟩ := c
    have hb : b ≠ a := h (b, w) (by simp)
    have hr : ∀ c ∈ rest, c.1 ≠ a := fun c hc => h c (by simp [hc])
    by_cases hlt : a < b <;> simp [Memory.insert, Memory.read, hlt, hb, ih hr]

theorem Memory.read_insert_of_ne (m : Memory) {a k : Nat} (v : Byte) (h : k ≠ a) :
    (m.insert a v).read k = m.read k := by
  induction m with
  | nil => simp [Memory.insert, Memory.read, Ne.symm h]
  | cons c rest ih =>
    obtain ⟨b, w⟩ := c
    by_cases hlt : a < b <;> simp [Memory.insert, Memory.read, hlt, Ne.symm h, ih]

theorem Memory.remove_ne (m : Memory) (a : Nat) : ∀ c ∈ m.remove a, c.1 ≠ a := by
  intro c hc; simpa [Memory.remove] using (List.mem_filter.mp hc).2

/-- A read after a write to the same existing address gives the value written. -/
theorem Memory.read_write_self (m : Memory) {a : Nat} (v : Byte) (h : a < 4096) : (m.write a v).read a = v := by
  by_cases hv : v = Config.resetByte a
  · simp [Memory.write, h, hv, Memory.read_remove_self]
  · simp [Memory.write, h, hv, Memory.read_insert_self _ _ _ (Memory.remove_ne m a)]

/-- A write leaves every other address alone. -/
theorem Memory.read_write_of_ne (m : Memory) {a k : Nat} (v : Byte) (h : k ≠ a) :
    (m.write a v).read k = m.read k := by
  unfold Memory.write
  split
  · split
    · exact Memory.read_remove_of_ne m h
    · rw [Memory.read_insert_of_ne _ v h, Memory.read_remove_of_ne m h]
  · rfl

/-- Addresses below the written block read as before. -/
theorem Memory.read_writeBytes_below (vs : List Byte) (m : Memory) {a k : Nat} (h : k < a) :
    (m.writeBytes a vs).read k = m.read k := by
  induction vs generalizing m a with
  | nil => rfl
  | cons v vs ih => rw [Memory.writeBytes, ih _ (by omega), Memory.read_write_of_ne m v (by omega)]

/-- Addresses above the written block read as before. -/
theorem Memory.read_writeBytes_above (vs : List Byte) (m : Memory) {a k : Nat} (h : a + vs.length ≤ k) :
    (m.writeBytes a vs).read k = m.read k := by
  induction vs generalizing m a with
  | nil => rfl
  | cons v vs ih =>
    simp only [List.length_cons] at h
    rw [Memory.writeBytes, ih _ (by omega), Memory.read_write_of_ne m v (by omega)]

/-- Byte `i` of the written block is at its address. -/
theorem Memory.read_writeBytes_inside (vs : List Byte) (m : Memory) {a i : Nat} (hi : i < vs.length)
    (h : a + i < 4096) : (m.writeBytes a vs).read (a + i) = vs[i] := by
  induction vs generalizing m a i with
  | nil => simp at hi
  | cons v vs ih =>
    rw [Memory.writeBytes]
    cases i with
    | zero => rw [Memory.read_writeBytes_below _ _ (by omega)]; exact Memory.read_write_self m v (by omega)
    | succ j =>
      have hj : j < vs.length := by simpa using hi
      have := ih (m.write a v) (a := a + 1) hj (by omega)
      rw [show a + (j + 1) = a + 1 + j by omega, this]; rfl

/-! ### The canonical form -/

theorem Memory.wf_nil : Memory.wf [] := ⟨List.Pairwise.nil, by simp⟩

theorem Memory.wf_remove {m : Memory} (a : Nat) (h : m.wf) : (m.remove a).wf :=
  ⟨h.1.filter _, fun c hc => h.2 c (List.mem_of_mem_filter hc)⟩

theorem Memory.mem_insert {m : Memory} {a : Nat} {v : Byte} {c : Host.Cell} (h : c ∈ m.insert a v) :
    c = (a, v) ∨ c ∈ m := by
  induction m with
  | nil => simpa [Memory.insert] using h
  | cons d rest ih =>
    obtain ⟨b, w⟩ := d
    by_cases hlt : a < b
    · simpa [Memory.insert, hlt] using h
    · simp only [Memory.insert, hlt, if_false, List.mem_cons] at h
      rcases h with h | h
      · simp [h]
      · rcases ih h with h | h <;> simp [h]

theorem Memory.pairwise_insert {m : Memory} {a : Nat} {v : Byte} (h : m.Pairwise (fun c d => c.1 < d.1))
    (hne : ∀ c ∈ m, c.1 ≠ a) : (m.insert a v).Pairwise (fun c d => c.1 < d.1) := by
  induction m with
  | nil => simp [Memory.insert]
  | cons d rest ih =>
    obtain ⟨b, w⟩ := d
    rw [List.pairwise_cons] at h
    have hb : b ≠ a := hne (b, w) (by simp)
    by_cases hlt : a < b
    · simp only [Memory.insert, hlt, if_true, List.pairwise_cons]
      refine ⟨fun c hc => ?_, h.1, h.2⟩
      rcases List.mem_cons.mp hc with rfl | hc
      · exact hlt
      · exact Nat.lt_trans hlt (h.1 c hc)
    · simp only [Memory.insert, hlt, if_false, List.pairwise_cons]
      refine ⟨fun c hc => ?_, ih h.2 fun c hc => hne c (by simp [hc])⟩
      rcases Memory.mem_insert hc with rfl | hc
      · show b < a
        omega
      · exact h.1 c hc

/-- Every write keeps the canonical form. -/
theorem Memory.wf_write {m : Memory} (a : Nat) (v : Byte) (h : m.wf) : (m.write a v).wf := by
  unfold Memory.write
  split
  · next ha =>
    split
    · exact Memory.wf_remove a h
    · next hv =>
      have hr := Memory.wf_remove a h
      refine ⟨Memory.pairwise_insert hr.1 (Memory.remove_ne m a), fun c hc => ?_⟩
      rcases Memory.mem_insert hc with rfl | hc
      · exact ⟨ha, hv⟩
      · exact hr.2 c hc
  · exact h

/-- Every block write keeps the canonical form. -/
theorem Memory.wf_writeBytes (vs : List Byte) {m : Memory} (a : Nat) (h : m.wf) : (m.writeBytes a vs).wf := by
  induction vs generalizing m a with
  | nil => exact h
  | cons v vs ih => exact ih (a + 1) (Memory.wf_write a v h)

end Sys2Proof.Machine
end

