-- ==== Sys2Proof/Laws/State.lean ====
section
/-! SUPPORT. One lemma per field per update of State, all true by rfl, so that no later proof unfolds a record
update; and the laws of the register file. -/

namespace Sys2Proof.Machine

/-! ### setV -/

section
variable (s : State) (v : Vector Byte 16)

@[simp] theorem State.setV_V : (s.setV v).V = v := rfl
@[simp] theorem State.setV_pc : (s.setV v).pc = s.pc := rfl
@[simp] theorem State.setV_I : (s.setV v).I = s.I := rfl
@[simp] theorem State.setV_sp : (s.setV v).sp = s.sp := rfl
@[simp] theorem State.setV_stack : (s.setV v).stack = s.stack := rfl
@[simp] theorem State.setV_DT : (s.setV v).DT = s.DT := rfl
@[simp] theorem State.setV_ST : (s.setV v).ST = s.ST := rfl
@[simp] theorem State.setV_key : (s.setV v).key = s.key := rfl
@[simp] theorem State.setV_fb : (s.setV v).fb = s.fb := rfl
@[simp] theorem State.setV_mem : (s.setV v).mem = s.mem := rfl
@[simp] theorem State.setV_fault : (s.setV v).fault = s.fault := rfl
@[simp] theorem State.setV_draws : (s.setV v).draws = s.draws := rfl

end

/-! ### setPc -/

section
variable (s : State) (v : Word)

@[simp] theorem State.setPc_V : (s.setPc v).V = s.V := rfl
@[simp] theorem State.setPc_pc : (s.setPc v).pc = v := rfl
@[simp] theorem State.setPc_I : (s.setPc v).I = s.I := rfl
@[simp] theorem State.setPc_sp : (s.setPc v).sp = s.sp := rfl
@[simp] theorem State.setPc_stack : (s.setPc v).stack = s.stack := rfl
@[simp] theorem State.setPc_DT : (s.setPc v).DT = s.DT := rfl
@[simp] theorem State.setPc_ST : (s.setPc v).ST = s.ST := rfl
@[simp] theorem State.setPc_key : (s.setPc v).key = s.key := rfl
@[simp] theorem State.setPc_fb : (s.setPc v).fb = s.fb := rfl
@[simp] theorem State.setPc_mem : (s.setPc v).mem = s.mem := rfl
@[simp] theorem State.setPc_fault : (s.setPc v).fault = s.fault := rfl
@[simp] theorem State.setPc_draws : (s.setPc v).draws = s.draws := rfl

end

/-! ### setI -/

section
variable (s : State) (v : Word)

@[simp] theorem State.setI_V : (s.setI v).V = s.V := rfl
@[simp] theorem State.setI_pc : (s.setI v).pc = s.pc := rfl
@[simp] theorem State.setI_I : (s.setI v).I = v := rfl
@[simp] theorem State.setI_sp : (s.setI v).sp = s.sp := rfl
@[simp] theorem State.setI_stack : (s.setI v).stack = s.stack := rfl
@[simp] theorem State.setI_DT : (s.setI v).DT = s.DT := rfl
@[simp] theorem State.setI_ST : (s.setI v).ST = s.ST := rfl
@[simp] theorem State.setI_key : (s.setI v).key = s.key := rfl
@[simp] theorem State.setI_fb : (s.setI v).fb = s.fb := rfl
@[simp] theorem State.setI_mem : (s.setI v).mem = s.mem := rfl
@[simp] theorem State.setI_fault : (s.setI v).fault = s.fault := rfl
@[simp] theorem State.setI_draws : (s.setI v).draws = s.draws := rfl

end

/-! ### setSp -/

section
variable (s : State) (v : Fin 17)

@[simp] theorem State.setSp_V : (s.setSp v).V = s.V := rfl
@[simp] theorem State.setSp_pc : (s.setSp v).pc = s.pc := rfl
@[simp] theorem State.setSp_I : (s.setSp v).I = s.I := rfl
@[simp] theorem State.setSp_sp : (s.setSp v).sp = v := rfl
@[simp] theorem State.setSp_stack : (s.setSp v).stack = s.stack := rfl
@[simp] theorem State.setSp_DT : (s.setSp v).DT = s.DT := rfl
@[simp] theorem State.setSp_ST : (s.setSp v).ST = s.ST := rfl
@[simp] theorem State.setSp_key : (s.setSp v).key = s.key := rfl
@[simp] theorem State.setSp_fb : (s.setSp v).fb = s.fb := rfl
@[simp] theorem State.setSp_mem : (s.setSp v).mem = s.mem := rfl
@[simp] theorem State.setSp_fault : (s.setSp v).fault = s.fault := rfl
@[simp] theorem State.setSp_draws : (s.setSp v).draws = s.draws := rfl

end

/-! ### setStack -/

section
variable (s : State) (v : Vector Word 16)

@[simp] theorem State.setStack_V : (s.setStack v).V = s.V := rfl
@[simp] theorem State.setStack_pc : (s.setStack v).pc = s.pc := rfl
@[simp] theorem State.setStack_I : (s.setStack v).I = s.I := rfl
@[simp] theorem State.setStack_sp : (s.setStack v).sp = s.sp := rfl
@[simp] theorem State.setStack_stack : (s.setStack v).stack = v := rfl
@[simp] theorem State.setStack_DT : (s.setStack v).DT = s.DT := rfl
@[simp] theorem State.setStack_ST : (s.setStack v).ST = s.ST := rfl
@[simp] theorem State.setStack_key : (s.setStack v).key = s.key := rfl
@[simp] theorem State.setStack_fb : (s.setStack v).fb = s.fb := rfl
@[simp] theorem State.setStack_mem : (s.setStack v).mem = s.mem := rfl
@[simp] theorem State.setStack_fault : (s.setStack v).fault = s.fault := rfl
@[simp] theorem State.setStack_draws : (s.setStack v).draws = s.draws := rfl

end

/-! ### setDT -/

section
variable (s : State) (v : Byte)

@[simp] theorem State.setDT_V : (s.setDT v).V = s.V := rfl
@[simp] theorem State.setDT_pc : (s.setDT v).pc = s.pc := rfl
@[simp] theorem State.setDT_I : (s.setDT v).I = s.I := rfl
@[simp] theorem State.setDT_sp : (s.setDT v).sp = s.sp := rfl
@[simp] theorem State.setDT_stack : (s.setDT v).stack = s.stack := rfl
@[simp] theorem State.setDT_DT : (s.setDT v).DT = v := rfl
@[simp] theorem State.setDT_ST : (s.setDT v).ST = s.ST := rfl
@[simp] theorem State.setDT_key : (s.setDT v).key = s.key := rfl
@[simp] theorem State.setDT_fb : (s.setDT v).fb = s.fb := rfl
@[simp] theorem State.setDT_mem : (s.setDT v).mem = s.mem := rfl
@[simp] theorem State.setDT_fault : (s.setDT v).fault = s.fault := rfl
@[simp] theorem State.setDT_draws : (s.setDT v).draws = s.draws := rfl

end

/-! ### setST -/

section
variable (s : State) (v : Byte)

@[simp] theorem State.setST_V : (s.setST v).V = s.V := rfl
@[simp] theorem State.setST_pc : (s.setST v).pc = s.pc := rfl
@[simp] theorem State.setST_I : (s.setST v).I = s.I := rfl
@[simp] theorem State.setST_sp : (s.setST v).sp = s.sp := rfl
@[simp] theorem State.setST_stack : (s.setST v).stack = s.stack := rfl
@[simp] theorem State.setST_DT : (s.setST v).DT = s.DT := rfl
@[simp] theorem State.setST_ST : (s.setST v).ST = v := rfl
@[simp] theorem State.setST_key : (s.setST v).key = s.key := rfl
@[simp] theorem State.setST_fb : (s.setST v).fb = s.fb := rfl
@[simp] theorem State.setST_mem : (s.setST v).mem = s.mem := rfl
@[simp] theorem State.setST_fault : (s.setST v).fault = s.fault := rfl
@[simp] theorem State.setST_draws : (s.setST v).draws = s.draws := rfl

end

/-! ### setKey -/

section
variable (s : State) (v : Vector Bool 16)

@[simp] theorem State.setKey_V : (s.setKey v).V = s.V := rfl
@[simp] theorem State.setKey_pc : (s.setKey v).pc = s.pc := rfl
@[simp] theorem State.setKey_I : (s.setKey v).I = s.I := rfl
@[simp] theorem State.setKey_sp : (s.setKey v).sp = s.sp := rfl
@[simp] theorem State.setKey_stack : (s.setKey v).stack = s.stack := rfl
@[simp] theorem State.setKey_DT : (s.setKey v).DT = s.DT := rfl
@[simp] theorem State.setKey_ST : (s.setKey v).ST = s.ST := rfl
@[simp] theorem State.setKey_key : (s.setKey v).key = v := rfl
@[simp] theorem State.setKey_fb : (s.setKey v).fb = s.fb := rfl
@[simp] theorem State.setKey_mem : (s.setKey v).mem = s.mem := rfl
@[simp] theorem State.setKey_fault : (s.setKey v).fault = s.fault := rfl
@[simp] theorem State.setKey_draws : (s.setKey v).draws = s.draws := rfl

end

/-! ### setFb -/

section
variable (s : State) (v : Framebuffer)

@[simp] theorem State.setFb_V : (s.setFb v).V = s.V := rfl
@[simp] theorem State.setFb_pc : (s.setFb v).pc = s.pc := rfl
@[simp] theorem State.setFb_I : (s.setFb v).I = s.I := rfl
@[simp] theorem State.setFb_sp : (s.setFb v).sp = s.sp := rfl
@[simp] theorem State.setFb_stack : (s.setFb v).stack = s.stack := rfl
@[simp] theorem State.setFb_DT : (s.setFb v).DT = s.DT := rfl
@[simp] theorem State.setFb_ST : (s.setFb v).ST = s.ST := rfl
@[simp] theorem State.setFb_key : (s.setFb v).key = s.key := rfl
@[simp] theorem State.setFb_fb : (s.setFb v).fb = v := rfl
@[simp] theorem State.setFb_mem : (s.setFb v).mem = s.mem := rfl
@[simp] theorem State.setFb_fault : (s.setFb v).fault = s.fault := rfl
@[simp] theorem State.setFb_draws : (s.setFb v).draws = s.draws := rfl

end

/-! ### setMem -/

section
variable (s : State) (v : Memory)

@[simp] theorem State.setMem_V : (s.setMem v).V = s.V := rfl
@[simp] theorem State.setMem_pc : (s.setMem v).pc = s.pc := rfl
@[simp] theorem State.setMem_I : (s.setMem v).I = s.I := rfl
@[simp] theorem State.setMem_sp : (s.setMem v).sp = s.sp := rfl
@[simp] theorem State.setMem_stack : (s.setMem v).stack = s.stack := rfl
@[simp] theorem State.setMem_DT : (s.setMem v).DT = s.DT := rfl
@[simp] theorem State.setMem_ST : (s.setMem v).ST = s.ST := rfl
@[simp] theorem State.setMem_key : (s.setMem v).key = s.key := rfl
@[simp] theorem State.setMem_fb : (s.setMem v).fb = s.fb := rfl
@[simp] theorem State.setMem_mem : (s.setMem v).mem = v := rfl
@[simp] theorem State.setMem_fault : (s.setMem v).fault = s.fault := rfl
@[simp] theorem State.setMem_draws : (s.setMem v).draws = s.draws := rfl

end

/-! ### setFault -/

section
variable (s : State) (v : Option Fault)

@[simp] theorem State.setFault_V : (s.setFault v).V = s.V := rfl
@[simp] theorem State.setFault_pc : (s.setFault v).pc = s.pc := rfl
@[simp] theorem State.setFault_I : (s.setFault v).I = s.I := rfl
@[simp] theorem State.setFault_sp : (s.setFault v).sp = s.sp := rfl
@[simp] theorem State.setFault_stack : (s.setFault v).stack = s.stack := rfl
@[simp] theorem State.setFault_DT : (s.setFault v).DT = s.DT := rfl
@[simp] theorem State.setFault_ST : (s.setFault v).ST = s.ST := rfl
@[simp] theorem State.setFault_key : (s.setFault v).key = s.key := rfl
@[simp] theorem State.setFault_fb : (s.setFault v).fb = s.fb := rfl
@[simp] theorem State.setFault_mem : (s.setFault v).mem = s.mem := rfl
@[simp] theorem State.setFault_fault : (s.setFault v).fault = v := rfl
@[simp] theorem State.setFault_draws : (s.setFault v).draws = s.draws := rfl

end

/-! ### setDraws -/

section
variable (s : State) (v : Nat)

@[simp] theorem State.setDraws_V : (s.setDraws v).V = s.V := rfl
@[simp] theorem State.setDraws_pc : (s.setDraws v).pc = s.pc := rfl
@[simp] theorem State.setDraws_I : (s.setDraws v).I = s.I := rfl
@[simp] theorem State.setDraws_sp : (s.setDraws v).sp = s.sp := rfl
@[simp] theorem State.setDraws_stack : (s.setDraws v).stack = s.stack := rfl
@[simp] theorem State.setDraws_DT : (s.setDraws v).DT = s.DT := rfl
@[simp] theorem State.setDraws_ST : (s.setDraws v).ST = s.ST := rfl
@[simp] theorem State.setDraws_key : (s.setDraws v).key = s.key := rfl
@[simp] theorem State.setDraws_fb : (s.setDraws v).fb = s.fb := rfl
@[simp] theorem State.setDraws_mem : (s.setDraws v).mem = s.mem := rfl
@[simp] theorem State.setDraws_fault : (s.setDraws v).fault = s.fault := rfl
@[simp] theorem State.setDraws_draws : (s.setDraws v).draws = v := rfl

end

/-! ### The register file -/

section
variable (s : State) (x : RegIx) (v : Byte)

@[simp] theorem State.setReg_pc : (s.setReg x v).pc = s.pc := rfl
@[simp] theorem State.setReg_I : (s.setReg x v).I = s.I := rfl
@[simp] theorem State.setReg_sp : (s.setReg x v).sp = s.sp := rfl
@[simp] theorem State.setReg_stack : (s.setReg x v).stack = s.stack := rfl
@[simp] theorem State.setReg_DT : (s.setReg x v).DT = s.DT := rfl
@[simp] theorem State.setReg_ST : (s.setReg x v).ST = s.ST := rfl
@[simp] theorem State.setReg_key : (s.setReg x v).key = s.key := rfl
@[simp] theorem State.setReg_fb : (s.setReg x v).fb = s.fb := rfl
@[simp] theorem State.setReg_mem : (s.setReg x v).mem = s.mem := rfl
@[simp] theorem State.setReg_fault : (s.setReg x v).fault = s.fault := rfl
@[simp] theorem State.setReg_draws : (s.setReg x v).draws = s.draws := rfl

@[simp] theorem State.setReg_reg_self : (s.setReg x v).reg x = v := by simp [State.reg, State.setReg]

theorem State.setReg_reg_of_ne {r : RegIx} (h : r ≠ x) : (s.setReg x v).reg r = s.reg r := by
  simp [State.reg, State.setReg, Vector.getElem_set_ne, Fin.val_ne_of_ne (Ne.symm h)]

theorem State.setReg_reg (r : RegIx) : (s.setReg x v).reg r = if r = x then v else s.reg r := by
  by_cases h : r = x
  · subst h; simp
  · simp [h, State.setReg_reg_of_ne s x v h]

end

/-! ### Reading a register past an update of another field -/

section
variable (s : State) (r : RegIx)

@[simp] theorem State.setPc_reg (v : Word) : (s.setPc v).reg r = s.reg r := rfl
@[simp] theorem State.setI_reg (v : Word) : (s.setI v).reg r = s.reg r := rfl
@[simp] theorem State.setSp_reg (v : Fin 17) : (s.setSp v).reg r = s.reg r := rfl
@[simp] theorem State.setStack_reg (v : Vector Word 16) : (s.setStack v).reg r = s.reg r := rfl
@[simp] theorem State.setDT_reg (v : Byte) : (s.setDT v).reg r = s.reg r := rfl
@[simp] theorem State.setST_reg (v : Byte) : (s.setST v).reg r = s.reg r := rfl
@[simp] theorem State.setKey_reg (v : Vector Bool 16) : (s.setKey v).reg r = s.reg r := rfl
@[simp] theorem State.setFb_reg (v : Framebuffer) : (s.setFb v).reg r = s.reg r := rfl
@[simp] theorem State.setMem_reg (v : Memory) : (s.setMem v).reg r = s.reg r := rfl
@[simp] theorem State.setFault_reg (v : Option Fault) : (s.setFault v).reg r = s.reg r := rfl
@[simp] theorem State.setDraws_reg (v : Nat) : (s.setDraws v).reg r = s.reg r := rfl

end

/-! ### The program-counter policies -/

section
variable (s : State)

@[simp] theorem State.advance_V : s.advance.V = s.V := rfl
@[simp] theorem State.advance_pc : s.advance.pc = s.pc + 2 := rfl
@[simp] theorem State.advance_I : s.advance.I = s.I := rfl
@[simp] theorem State.advance_sp : s.advance.sp = s.sp := rfl
@[simp] theorem State.advance_stack : s.advance.stack = s.stack := rfl
@[simp] theorem State.advance_DT : s.advance.DT = s.DT := rfl
@[simp] theorem State.advance_ST : s.advance.ST = s.ST := rfl
@[simp] theorem State.advance_key : s.advance.key = s.key := rfl
@[simp] theorem State.advance_fb : s.advance.fb = s.fb := rfl
@[simp] theorem State.advance_mem : s.advance.mem = s.mem := rfl
@[simp] theorem State.advance_fault : s.advance.fault = s.fault := rfl
@[simp] theorem State.advance_draws : s.advance.draws = s.draws := rfl
@[simp] theorem State.advance_reg (r : RegIx) : s.advance.reg r = s.reg r := rfl

@[simp] theorem State.skipIf_V (c : Bool) : (s.skipIf c).V = s.V := rfl
@[simp] theorem State.skipIf_pc (c : Bool) : (s.skipIf c).pc = if c then s.pc + 4 else s.pc + 2 := rfl
@[simp] theorem State.skipIf_I (c : Bool) : (s.skipIf c).I = s.I := rfl
@[simp] theorem State.skipIf_sp (c : Bool) : (s.skipIf c).sp = s.sp := rfl
@[simp] theorem State.skipIf_stack (c : Bool) : (s.skipIf c).stack = s.stack := rfl
@[simp] theorem State.skipIf_DT (c : Bool) : (s.skipIf c).DT = s.DT := rfl
@[simp] theorem State.skipIf_ST (c : Bool) : (s.skipIf c).ST = s.ST := rfl
@[simp] theorem State.skipIf_key (c : Bool) : (s.skipIf c).key = s.key := rfl
@[simp] theorem State.skipIf_fb (c : Bool) : (s.skipIf c).fb = s.fb := rfl
@[simp] theorem State.skipIf_mem (c : Bool) : (s.skipIf c).mem = s.mem := rfl
@[simp] theorem State.skipIf_fault (c : Bool) : (s.skipIf c).fault = s.fault := rfl
@[simp] theorem State.skipIf_draws (c : Bool) : (s.skipIf c).draws = s.draws := rfl
@[simp] theorem State.skipIf_reg (c : Bool) (r : RegIx) : (s.skipIf c).reg r = s.reg r := rfl

end

/-! ### Result, then flag -/

section
variable (s : State) (x : RegIx) (v : Byte) (flag : Bool)

@[simp] theorem writeResultThenFlag_pc : (writeResultThenFlag s x v flag).pc = s.pc + 2 := rfl
@[simp] theorem writeResultThenFlag_I : (writeResultThenFlag s x v flag).I = s.I := rfl
@[simp] theorem writeResultThenFlag_sp : (writeResultThenFlag s x v flag).sp = s.sp := rfl
@[simp] theorem writeResultThenFlag_stack : (writeResultThenFlag s x v flag).stack = s.stack := rfl
@[simp] theorem writeResultThenFlag_DT : (writeResultThenFlag s x v flag).DT = s.DT := rfl
@[simp] theorem writeResultThenFlag_ST : (writeResultThenFlag s x v flag).ST = s.ST := rfl
@[simp] theorem writeResultThenFlag_key : (writeResultThenFlag s x v flag).key = s.key := rfl
@[simp] theorem writeResultThenFlag_fb : (writeResultThenFlag s x v flag).fb = s.fb := rfl
@[simp] theorem writeResultThenFlag_mem : (writeResultThenFlag s x v flag).mem = s.mem := rfl
@[simp] theorem writeResultThenFlag_fault : (writeResultThenFlag s x v flag).fault = s.fault := rfl
@[simp] theorem writeResultThenFlag_draws : (writeResultThenFlag s x v flag).draws = s.draws := rfl

/-- The flag is written last: it is what VF holds, whatever the destination (00_scope.md R18). -/
@[simp] theorem writeResultThenFlag_flag : (writeResultThenFlag s x v flag).reg VF = flagByte flag := by
  simp [writeResultThenFlag]

theorem writeResultThenFlag_result (h : x ≠ VF) : (writeResultThenFlag s x v flag).reg x = v := by
  simp [writeResultThenFlag, State.setReg_reg_of_ne _ _ _ h]

theorem writeResultThenFlag_other {r : RegIx} (hx : r ≠ x) (hf : r ≠ VF) :
    (writeResultThenFlag s x v flag).reg r = s.reg r := by
  simp [writeResultThenFlag, State.setReg_reg_of_ne _ _ _ hx, State.setReg_reg_of_ne _ _ _ hf]

end

end Sys2Proof.Machine
end

