-- ==== Sys2Proof/Laws/Operands.lean ====
section
/-! SUPPORT. What each shared operand form and flag computation can do, said once: the range test of the
addressing mode, the key index, the least key, digits, register blocks, flags as numbers. -/

namespace Sys2Proof.Machine

/-- Taking a fault sets the latch and nothing else (60_exceptions.md R245). -/
theorem takeFault_eq (f : Fault) (s : State) : takeFault f s = .next { s with fault := some f } := rfl

/-! ### The addressing mode (20_memory.md R58) -/

theorem accessing_ok {count : Nat} {s done : State} (h : count = 0 ∨ s.I.toNat + count - 1 ≤ 4095) :
    accessing count s done = .next done := by
  unfold accessing; rw [if_neg (by omega)]

theorem accessing_fault {count : Nat} {s done : State} (h1 : 1 ≤ count) (h : 4095 < s.I.toNat + count - 1) :
    accessing count s done =
      .next { s with fault := some (.memIndexOutOfRange s.I (s.I.toNat + count - 1) s.pc) } := by
  unfold accessing; rw [if_pos ⟨h1, h⟩, takeFault_eq]

/-- An access ends in the given state or in the faulted one, and nothing else. -/
theorem accessing_cases {count : Nat} {s done t : State} (h : accessing count s done = .next t) :
    ((count = 0 ∨ s.I.toNat + count - 1 ≤ 4095) ∧ t = done) ∨
    (1 ≤ count ∧ 4095 < s.I.toNat + count - 1 ∧
      t = { s with fault := some (.memIndexOutOfRange s.I (s.I.toNat + count - 1) s.pc) }) := by
  by_cases hc : 1 ≤ count ∧ 4095 < s.I.toNat + count - 1
  · rw [accessing_fault hc.1 hc.2] at h; cases h; exact .inr ⟨hc.1, hc.2, rfl⟩
  · have hok : count = 0 ∨ s.I.toNat + count - 1 ≤ 4095 := by omega
    rw [accessing_ok hok] at h; cases h; exact .inl ⟨hok, rfl⟩

/-! ### The key index (45_keypad_timers.md R201) -/

theorem withKeyIndex_ok {v : Byte} {s : State} {use : RegIx → State} (h : v.toNat < 16) :
    withKeyIndex v s use = .next (use ⟨v.toNat, h⟩) := by simp [withKeyIndex, h]

theorem withKeyIndex_fault {v : Byte} {s : State} {use : RegIx → State} (h : 16 ≤ v.toNat) :
    withKeyIndex v s use = .next { s with fault := some (.keyIndexOutOfRange v s.pc) } := by
  simp [withKeyIndex, Nat.not_lt.mpr h, takeFault_eq]

/-- A key index ends in its use or in the faulted state, and nothing else. -/
theorem withKeyIndex_cases {v : Byte} {s t : State} {use : RegIx → State} (h : withKeyIndex v s use = .next t) :
    (∃ hv : v.toNat < 16, t = use ⟨v.toNat, hv⟩) ∨
    (16 ≤ v.toNat ∧ t = { s with fault := some (.keyIndexOutOfRange v s.pc) }) := by
  by_cases hv : v.toNat < 16
  · rw [withKeyIndex_ok hv] at h; cases h; exact .inl ⟨hv, rfl⟩
  · rw [withKeyIndex_fault (by omega)] at h; cases h; exact .inr ⟨by omega, rfl⟩

/-! ### The least pressed key (R203) -/

theorem lowestKey_none {key : Vector Bool 16} : lowestKey key = none ↔ ∀ k : RegIx, key[k] = false := by
  simp [lowestKey, List.find?_eq_none]

/-- The key found is pressed, and every lower key is not. -/
theorem lowestKey_some {key : Vector Bool 16} {k : RegIx} :
    lowestKey key = some k ↔ key[k] = true ∧ ∀ j : RegIx, j < k → key[j] = false := by
  constructor
  · intro h
    refine ⟨by simpa using List.find?_some h, fun j hj => ?_⟩
    obtain ⟨-, l, r, hl, hno⟩ := List.find?_eq_some_iff_append.mp h
    have hs : (List.finRange 16).Pairwise (· < ·) := List.pairwise_lt_finRange 16
    have hm : j ∈ l ++ k :: r := hl ▸ List.mem_finRange j
    rw [hl, List.pairwise_append, List.pairwise_cons] at hs
    rcases List.mem_append.mp hm with hjl | hjr
    · simpa using hno j hjl
    · rcases List.mem_cons.mp hjr with rfl | hjr
      · exact absurd hj (lt_irrefl _)
      · exact absurd (lt_trans hj (hs.2.1.1 j hjr)) (lt_irrefl _)
  · rintro ⟨hk, hlt⟩
    cases h : lowestKey key with
    | none => exact absurd hk (by simp [lowestKey_none.mp h k])
    | some j =>
      have hj : key[j] = true := by simpa using List.find?_some h
      rcases lt_trichotomy j k with hjk | rfl | hkj
      · exact absurd hj (by simp [hlt j hjk])
      · rfl
      · obtain ⟨-, l, r, hl, hno⟩ := List.find?_eq_some_iff_append.mp h
        have hs : (List.finRange 16).Pairwise (· < ·) := List.pairwise_lt_finRange 16
        have hm : k ∈ l ++ j :: r := hl ▸ List.mem_finRange k
        rw [hl, List.pairwise_append, List.pairwise_cons] at hs
        rcases List.mem_append.mp hm with hkl | hkr
        · exact absurd hk (by simpa using hno k hkl)
        · rcases List.mem_cons.mp hkr with rfl | hkr
          · exact absurd hkj (lt_irrefl _)
          · exact absurd (lt_trans hkj (hs.2.1.1 k hkr)) (lt_irrefl _)

@[simp] theorem keyByte_toNat (k : RegIx) : (keyByte k).toNat = k.val := by
  have := k.isLt; simp [keyByte]; omega

/-! ### Addresses and blocks -/

@[simp] theorem addressOf_toNat (nnn : BitVec 12) : (addressOf nnn).toNat = nnn.toNat := by
  have := nnn.isLt; simp [addressOf]; omega

@[simp] theorem glyphAddress_toNat (v : Byte) : (glyphAddress v).toNat = 5 * (v.toNat % 16) := by
  simp [glyphAddress]; omega

@[simp] theorem decimalDigits_length (v : Byte) : (decimalDigits v).length = 3 := rfl

@[simp] theorem registersUpTo_length (s : State) (x : RegIx) : (registersUpTo s x).length = x.val + 1 := by
  have := x.isLt; simp [registersUpTo]

theorem registersUpTo_getElem (s : State) (x r : RegIx) (h : r.val < (registersUpTo s x).length) :
    (registersUpTo s x)[r.val] = s.reg r := by
  simp [registersUpTo, State.reg]

theorem loadedRegisters_getElem (s : State) (x r : RegIx) :
    (loadedRegisters s x)[r] = if r ≤ x then s.mem.read (s.I.toNat + r.val) else s.reg r := by
  simp [loadedRegisters, State.reg]

/-! ### Flags as numbers -/

@[simp] theorem flagByte_toNat (b : Bool) : (flagByte b).toNat = if b then 1 else 0 := by cases b <;> rfl

@[simp] theorem carry_eq (a b : Byte) : carry a b = decide (256 ≤ a.toNat + b.toNat) := rfl

@[simp] theorem notBorrow_eq (a b : Byte) : notBorrow a b = !decide (a.toNat < b.toNat) := rfl

theorem shiftedOutLow_toNat (a : Byte) : (flagByte (shiftedOutLow a)).toNat = a.toNat % 2 := by
  rcases Nat.mod_two_eq_zero_or_one a.toNat with h | h <;> simp [shiftedOutLow, h]

theorem shiftedOutHigh_toNat (a : Byte) : (flagByte (shiftedOutHigh a)).toNat = a.toNat / 128 := by
  have := a.isLt
  rcases (by omega : a.toNat / 128 = 0 ∨ a.toNat / 128 = 1) with h | h <;> simp [shiftedOutHigh, h]

/-! ### The timers (40_cycle.md R108) -/

@[simp] theorem tickTimer_toNat (t : Byte) : (tickTimer t).toNat = t.toNat - 1 := by
  have := t.isLt
  unfold tickTimer
  split
  · rw [BitVec.toNat_sub_of_le (show (1 : Byte) ≤ t from BitVec.le_def.mpr ‹0 < t.toNat›)]; rfl
  · omega

end Sys2Proof.Machine
end

