-- ==== Sys2Proof/Laws/Cycle.lean ====
section
/-! SUPPORT. What one cycle can do, said once (40_cycle.md R100): the equations of fetch, of the end of a cycle,
of `step` and `cycleWith`, and the case analysis later proofs cite. -/

namespace Sys2Proof.Machine

section
variable (s : State)
@[simp] theorem tick_DT : (tick s).DT = tickTimer s.DT := rfl
@[simp] theorem tick_ST : (tick s).ST = tickTimer s.ST := rfl
@[simp] theorem tick_V : (tick s).V = s.V := rfl
@[simp] theorem tick_pc : (tick s).pc = s.pc := rfl
@[simp] theorem tick_I : (tick s).I = s.I := rfl
@[simp] theorem tick_sp : (tick s).sp = s.sp := rfl
@[simp] theorem tick_stack : (tick s).stack = s.stack := rfl
@[simp] theorem tick_key : (tick s).key = s.key := rfl
@[simp] theorem tick_fb : (tick s).fb = s.fb := rfl
@[simp] theorem tick_mem : (tick s).mem = s.mem := rfl
@[simp] theorem tick_fault : (tick s).fault = s.fault := rfl
@[simp] theorem tick_draws : (tick s).draws = s.draws := rfl

/-- A cycle that did not fault ticks and uses up its random byte (R108, R109). -/
theorem endOfCycle_ok (h : s.fault = none) : endOfCycle s = nextDraw (tick s) := by simp [endOfCycle, h]

/-- A cycle that took a fault does not tick (60_exceptions.md R246). -/
theorem endOfCycle_fault {f : Fault} (h : s.fault = some f) : endOfCycle s = s := by simp [endOfCycle, h]

@[simp] theorem endOfCycle_faultLatch : (endOfCycle s).fault = s.fault := by
  cases h : s.fault with
  | none => simp [endOfCycle_ok s h, nextDraw, h]
  | some f => simp [endOfCycle_fault s h, h]

@[simp] theorem endOfCycle_V : (endOfCycle s).V = s.V := by unfold endOfCycle; split <;> rfl
@[simp] theorem endOfCycle_pc : (endOfCycle s).pc = s.pc := by unfold endOfCycle; split <;> rfl
@[simp] theorem endOfCycle_I : (endOfCycle s).I = s.I := by unfold endOfCycle; split <;> rfl
@[simp] theorem endOfCycle_sp : (endOfCycle s).sp = s.sp := by unfold endOfCycle; split <;> rfl
@[simp] theorem endOfCycle_stack : (endOfCycle s).stack = s.stack := by unfold endOfCycle; split <;> rfl
@[simp] theorem endOfCycle_key : (endOfCycle s).key = s.key := by unfold endOfCycle; split <;> rfl
@[simp] theorem endOfCycle_fb : (endOfCycle s).fb = s.fb := by unfold endOfCycle; split <;> rfl
@[simp] theorem endOfCycle_mem : (endOfCycle s).mem = s.mem := by unfold endOfCycle; split <;> rfl

end

variable {run : Instr → State → Host.Outcome State Fault Refusal} {s t : State}

/-- A faulted machine does nothing (R101). -/
theorem runCycle_faulted {f : Fault} (h : s.fault = some f) : runCycle run s = .next s := by simp [runCycle, h]

/-- A `pc` past 4094 takes FetchOutOfBounds (R103). -/
theorem runCycle_fetchFault (h : s.fault = none) (hpc : 4096 ≤ s.pc.toNat + 1) :
    runCycle run s = .next { s with fault := some (.fetchOutOfBounds s.pc) } := by
  simp [runCycle, h, fetch, Nat.not_lt.mpr hpc, takeFault_eq]

/-- The word a fetch gives (R102). -/
theorem fetch_ok (hpc : s.pc.toNat + 1 < 4096) :
    fetch s = some (wordOfBytes (s.mem.read s.pc.toNat) (s.mem.read (s.pc.toNat + 1))) := by simp [fetch, hpc]

/-- A machine that has not faulted runs the instruction its fetched word decodes to (R100, R105). -/
theorem runCycle_runs {op : Word} (h : s.fault = none) (hop : fetch s = some op) :
    runCycle run s = finish (run (decode op) s) := by simp [runCycle, h, hop]

/-- Everything a cycle can do when it answers a next state. -/
theorem runCycle_cases (h : runCycle run s = .next t) :
    (∃ f, s.fault = some f ∧ t = s) ∨
    (s.fault = none ∧ 4096 ≤ s.pc.toNat + 1 ∧ t = { s with fault := some (.fetchOutOfBounds s.pc) }) ∨
    (s.fault = none ∧ s.pc.toNat + 1 < 4096 ∧ ∃ u,
      run (decode (wordOfBytes (s.mem.read s.pc.toNat) (s.mem.read (s.pc.toNat + 1)))) s = .next u ∧
      t = endOfCycle u) := by
  cases hf : s.fault with
  | some f => rw [runCycle_faulted hf] at h; cases h; exact .inl ⟨f, rfl, rfl⟩
  | none =>
    by_cases hpc : s.pc.toNat + 1 < 4096
    · rw [runCycle_runs hf (fetch_ok hpc)] at h
      refine .inr (.inr ⟨rfl, hpc, ?_⟩)
      cases ho : run (decode (wordOfBytes (s.mem.read s.pc.toNat) (s.mem.read (s.pc.toNat + 1)))) s with
      | next u => rw [ho] at h; cases h; exact ⟨u, rfl, rfl⟩
      | fault f => rw [ho] at h; cases h
      | refused r => rw [ho] at h; cases h
    · rw [runCycle_fetchFault hf (by omega)] at h; cases h
      exact .inr (.inl ⟨rfl, by omega, rfl⟩)

/-- Only RND looks at the random byte: with the byte of the free source, the two execute stages agree. -/
theorem executeWith_free (i : Instr) (s : State) : executeWith (Config.rand s.draws) i s = exec i s := by
  cases i <;> rfl

/-- A run of any core that begins with a step to a next state goes on from there. -/
theorem run_of_step (M : Host.Core) {n : Nat} {s t : M.State} (h : M.step s = .next t) :
    M.run (n + 1) s = M.run n t := by rw [Host.Core.run, h]

/-- A run of the machine that begins with a step to a next state goes on from there. -/
theorem core_run_of_step {n : Nat} {s t : State} (h : step s = .next t) :
    Host.Core.run Sys2Proof.core (n + 1) s = Host.Core.run Sys2Proof.core n t := run_of_step Sys2Proof.core h

end Sys2Proof.Machine
end

