-- ==== Sys2Proof/Laws/Decode.lean ====
section
/-! SUPPORT. The fields of a word, and the packed words, in plain arithmetic (30_encoding.md R81, R82); what the
three masks of R86 leave of a word. -/

namespace Sys2Proof

theorem toNat_lt (op : Word) : op.toNat < 65536 := op.isLt

@[simp] theorem opN1_val (op : Word) : (opN1 op).val = op.toNat / 4096 := by
  have := toNat_lt op
  simp only [opN1, BitVec.val_toFin, BitVec.extractLsb'_toNat, Nat.shiftRight_eq_div_pow]; omega

@[simp] theorem opX_val (op : Word) : (opX op).val = op.toNat / 256 % 16 := by
  simp only [opX, BitVec.val_toFin, BitVec.extractLsb'_toNat, Nat.shiftRight_eq_div_pow]

@[simp] theorem opY_val (op : Word) : (opY op).val = op.toNat / 16 % 16 := by
  simp only [opY, BitVec.val_toFin, BitVec.extractLsb'_toNat, Nat.shiftRight_eq_div_pow]

@[simp] theorem opN_val (op : Word) : (opN op).val = op.toNat % 16 := by
  simp [opN]

@[simp] theorem opKk_toNat (op : Word) : (opKk op).toNat = op.toNat % 256 := by
  simp [opKk, BitVec.extractLsb'_toNat]

@[simp] theorem opNnn_toNat (op : Word) : (opNnn op).toNat = op.toNat % 4096 := by
  simp [opNnn, BitVec.extractLsb'_toNat]

@[simp] theorem wordOfBytes_toNat (hi lo : Byte) : (wordOfBytes hi lo).toNat = hi.toNat * 256 + lo.toNat := by
  have := hi.isLt; have := lo.isLt
  simp only [wordOfBytes, BitVec.toNat_ofNat]; omega

@[simp] theorem highByte_toNat (op : Word) : (highByte op).toNat = op.toNat / 256 := by
  have := toNat_lt op
  simp only [highByte, BitVec.extractLsb'_toNat, Nat.shiftRight_eq_div_pow]; omega

@[simp] theorem lowByte_toNat (op : Word) : (lowByte op).toNat = op.toNat % 256 := by
  simp [lowByte, BitVec.extractLsb'_toNat]

/-- Splitting a word into its bytes and putting them together again gives it back. -/
@[simp] theorem wordOfBytes_high_low (op : Word) : wordOfBytes (highByte op) (lowByte op) = op := by
  apply BitVec.eq_of_toNat_eq
  simp; omega

/-! ### Packed words -/

theorem packNnn_toNat {n1 : Nat} (h : n1 < 16) (nnn : BitVec 12) :
    (packNnn n1 nnn).toNat = n1 * 4096 + nnn.toNat := by
  have := nnn.isLt
  simp only [packNnn, BitVec.toNat_ofNat]; omega

theorem packXkk_toNat {n1 : Nat} (h : n1 < 16) (x : RegIx) (kk : Byte) :
    (packXkk n1 x kk).toNat = n1 * 4096 + x.val * 256 + kk.toNat := by
  have := kk.isLt; have := x.isLt
  simp only [packXkk, BitVec.toNat_ofNat]; omega

theorem packXyn_toNat {n1 : Nat} (h : n1 < 16) (x y n : Fin 16) :
    (packXyn n1 x y n).toNat = n1 * 4096 + x.val * 256 + y.val * 16 + n.val := by
  have := x.isLt; have := y.isLt; have := n.isLt
  simp only [packXyn, BitVec.toNat_ofNat]; omega

/-! ### The fields of a packed word -/

section
variable {n1 : Nat} (h : n1 < 16) (x y n : Fin 16) (kk : Byte) (nnn : BitVec 12)
include h

theorem opN1_packNnn : (opN1 (packNnn n1 nnn)).val = n1 := by
  have := nnn.isLt
  rw [opN1_val, packNnn_toNat h]; omega

theorem opNnn_packNnn : opNnn (packNnn n1 nnn) = nnn := by
  have := nnn.isLt
  apply BitVec.eq_of_toNat_eq; rw [opNnn_toNat, packNnn_toNat h]; omega

theorem opN1_packXkk : (opN1 (packXkk n1 x kk)).val = n1 := by
  have := kk.isLt; have := x.isLt
  rw [opN1_val, packXkk_toNat h]; omega

theorem opX_packXkk : opX (packXkk n1 x kk) = x := by
  have := kk.isLt; have := x.isLt
  apply Fin.ext; rw [opX_val, packXkk_toNat h]; omega

theorem opKk_packXkk : opKk (packXkk n1 x kk) = kk := by
  have := kk.isLt; have := x.isLt
  apply BitVec.eq_of_toNat_eq; rw [opKk_toNat, packXkk_toNat h]; omega

theorem opN1_packXyn : (opN1 (packXyn n1 x y n)).val = n1 := by
  have := x.isLt; have := y.isLt; have := n.isLt
  rw [opN1_val, packXyn_toNat h]; omega

theorem opX_packXyn : opX (packXyn n1 x y n) = x := by
  have := x.isLt; have := y.isLt; have := n.isLt
  apply Fin.ext; rw [opX_val, packXyn_toNat h]; omega

theorem opY_packXyn : opY (packXyn n1 x y n) = y := by
  have := x.isLt; have := y.isLt; have := n.isLt
  apply Fin.ext; rw [opY_val, packXyn_toNat h]; omega

theorem opN_packXyn : opN (packXyn n1 x y n) = n := by
  have := x.isLt; have := y.isLt; have := n.isLt
  apply Fin.ext; rw [opN_val, packXyn_toNat h]; omega

end

/-! ### The masks of R86 -/

theorem and_maskF000_toNat (op : Word) : (op &&& 0xF000#16).toNat = op.toNat / 4096 * 4096 := by
  have e : op &&& 0xF000#16 = (op >>> 12) <<< 12 := by
    apply BitVec.eq_of_getLsbD_eq
    intro i hi
    rw [BitVec.getLsbD_and, BitVec.getLsbD_shiftLeft, BitVec.getLsbD_ushiftRight]
    interval_cases i <;> simp
  have := toNat_lt op
  rw [e]; simp [Nat.shiftRight_eq_div_pow, Nat.shiftLeft_eq]; omega

theorem and_lowMask_toNat (op : Word) (k : Nat) (hk : k ≤ 16) :
    (op &&& BitVec.ofNat 16 (2 ^ k - 1)).toNat = op.toNat % 2 ^ k := by
  have h : 2 ^ k ≤ 2 ^ 16 := Nat.pow_le_pow_right (by omega) hk
  have h0 : 0 < 2 ^ k := Nat.pow_pos (by omega)
  rw [BitVec.toNat_and, BitVec.toNat_ofNat, Nat.mod_eq_of_lt (by omega), Nat.and_two_pow_sub_one_eq_mod]

/-- Two masks that share no bit: their part of a word adds up. -/
theorem and_disjoint_toNat (op a b : Word) (h : a &&& b = 0) :
    (op &&& (a ||| b)).toNat = (op &&& a).toNat + (op &&& b).toNat := by
  have d : (op &&& a) &&& (op &&& b) = 0#16 := by
    have : (op &&& a) &&& (op &&& b) = op &&& (a &&& b) := by
      apply BitVec.eq_of_getLsbD_eq; intro i hi; simp only [BitVec.getLsbD_and]
      cases op.getLsbD i <;> simp
    rw [this, h]; simp
  have e : op &&& (a ||| b) = (op &&& a) ||| (op &&& b) := by
    apply BitVec.eq_of_getLsbD_eq; intro i hi; simp only [BitVec.getLsbD_and, BitVec.getLsbD_or]
    cases op.getLsbD i <;> simp
  rw [e, ← BitVec.add_eq_or_of_and_eq_zero _ _ d, BitVec.toNat_add_of_and_eq_zero d]

theorem and_maskF00F_toNat (op : Word) :
    (op &&& 0xF00F#16).toNat = op.toNat / 4096 * 4096 + op.toNat % 16 := by
  have h := and_disjoint_toNat op 0xF000#16 0x000F#16 (by decide)
  rw [show (0xF000#16 ||| 0x000F#16) = 0xF00F#16 from by decide] at h
  rw [h, and_maskF000_toNat, show (0x000F#16 : Word) = BitVec.ofNat 16 (2 ^ 4 - 1) from rfl,
    and_lowMask_toNat op 4 (by omega), show 2 ^ 4 = 16 from rfl]

theorem and_maskF0FF_toNat (op : Word) :
    (op &&& 0xF0FF#16).toNat = op.toNat / 4096 * 4096 + op.toNat % 256 := by
  have h := and_disjoint_toNat op 0xF000#16 0x00FF#16 (by decide)
  rw [show (0xF000#16 ||| 0x00FF#16) = 0xF0FF#16 from by decide] at h
  rw [h, and_maskF000_toNat, show (0x00FF#16 : Word) = BitVec.ofNat 16 (2 ^ 8 - 1) from rfl,
    and_lowMask_toNat op 8 (by omega), show 2 ^ 8 = 256 from rfl]

end Sys2Proof
end

