-- ==== Sys2Proof/Laws/Display.lean ====
section
/-! SUPPORT. What a sprite draw does, said once: it toggles exactly its target cells, each once, and reports
whether one of them was on (44_display.md R192, R193, R195). -/

namespace Sys2Proof.Machine

theorem Framebuffer.cell_toggle (fb : Framebuffer) (r r' : Fin 32) (c c' : Fin 64) :
    (fb.toggle r c).cell r' c' = (fb.cell r' c' ^^ decide (r' = r ∧ c' = c)) := by
  unfold Framebuffer.cell Framebuffer.toggle
  by_cases hr : r' = r
  · subst hr
    by_cases hc : c' = c
    · subst hc; simp
    · have : (c : Nat) ≠ c' := fun e => hc (Fin.ext e.symm)
      simp [hc, Vector.getElem_set_ne, this]
  · have : (r : Nat) ≠ r' := fun e => hr (Fin.ext e.symm)
    simp [hr, Vector.getElem_set_ne, this]

@[simp] theorem Framebuffer.cell_clear (r : Fin 32) (c : Fin 64) : Framebuffer.clear.cell r c = false := by
  simp [Framebuffer.cell, Framebuffer.clear]

/-- Two framebuffers with equal cells are equal. -/
theorem Framebuffer.ext_cell {a b : Framebuffer} (h : ∀ r c, a.cell r c = b.cell r c) : a = b := by
  apply Vector.ext; intro i hi; apply Vector.ext; intro j hj
  exact h ⟨i, hi⟩ ⟨j, hj⟩

/-- The cells the set bits of a sprite land on, in the order of the loops. -/
def spriteTargets (m : Memory) (base vx vy n : Nat) : List (Fin 32 × Fin 64) :=
  (List.range n).flatMap fun r =>
    ((List.range 8).filter fun c => spriteBit (m.read (base + r)) c).map fun c =>
      (Fin.ofNat 32 (vy + r), Fin.ofNat 64 (vx + c))

theorem mem_spriteTargets {m : Memory} {base vx vy n : Nat} {p : Fin 32 × Fin 64} :
    p ∈ spriteTargets m base vx vy n ↔ ∃ r c, r < n ∧ c < 8 ∧ spriteBit (m.read (base + r)) c = true ∧
      p.1.val = (vy + r) % 32 ∧ p.2.val = (vx + c) % 64 := by
  simp only [spriteTargets, List.mem_flatMap, List.mem_range, List.mem_map, List.mem_filter]
  constructor
  · rintro ⟨r, hr, c, ⟨hc, hb⟩, rfl⟩; exact ⟨r, c, hr, hc, hb, rfl, rfl⟩
  · rintro ⟨r, c, hr, hc, hb, h1, h2⟩; exact ⟨r, hr, c, ⟨hc, hb⟩, Prod.ext (Fin.ext h1.symm) (Fin.ext h2.symm)⟩

/-- No cell is a target twice, since a sprite is lower and narrower than the grid (R193). -/
theorem spriteTargets_nodup (m : Memory) (base vx vy : Nat) {n : Nat} (h : n ≤ 32) :
    (spriteTargets m base vx vy n).Nodup := by
  unfold spriteTargets
  rw [List.nodup_flatMap]
  constructor
  · intro r _
    refine List.Nodup.map_on ?_ (List.nodup_range.filter _)
    intro c hc c' hc' e
    have h1 := (List.mem_range.mp (List.mem_of_mem_filter hc))
    have h2 := (List.mem_range.mp (List.mem_of_mem_filter hc'))
    have := congrArg (fun p : Fin 32 × Fin 64 => p.2.val) e
    simp only [Fin.ofNat] at this; omega
  · refine List.Pairwise.imp_of_mem ?_ List.pairwise_lt_range
    intro r r' hr hr' hlt
    have h1 := List.mem_range.mp hr
    have h2 := List.mem_range.mp hr'
    simp only [Function.onFun, List.disjoint_left, List.mem_map]
    rintro _ ⟨c, -, rfl⟩ ⟨c', -, e⟩
    have := congrArg (fun p : Fin 32 × Fin 64 => p.1.val) e
    simp only [Fin.ofNat] at this; omega

theorem drawRow_eq (bits : Byte) (row : Fin 32) (vx : Nat) (acc : Framebuffer × Bool) :
    drawRow bits row vx acc = (((List.range 8).filter fun c => spriteBit bits c).map fun c =>
      (row, (Fin.ofNat 64 (vx + c) : Fin 64))).foldl (fun acc p => drawPixel acc p.1 p.2) acc := by
  rw [drawRow, List.foldl_map, List.foldl_filter]

/-- The loops of R192 toggle the targets one after another. -/
theorem drawSprite_eq (m : Memory) (base vx vy n : Nat) (fb : Framebuffer) :
    drawSprite m base vx vy n fb =
      (spriteTargets m base vx vy n).foldl (fun acc p => drawPixel acc p.1 p.2) (fb, false) := by
  simp only [drawSprite, spriteTargets, drawRow_eq, List.foldl_flatMap]

theorem drawPixels_spec (ps : List (Fin 32 × Fin 64)) (hps : ps.Nodup) (acc : Framebuffer × Bool) :
    (∀ r c, (ps.foldl (fun acc p => drawPixel acc p.1 p.2) acc).1.cell r c =
      (acc.1.cell r c ^^ decide ((r, c) ∈ ps))) ∧
    (ps.foldl (fun acc p => drawPixel acc p.1 p.2) acc).2 =
      (acc.2 || decide (∃ p ∈ ps, acc.1.cell p.1 p.2 = true)) := by
  induction ps generalizing acc with
  | nil => simp
  | cons p ps ih =>
    obtain ⟨hp, hps⟩ := List.nodup_cons.mp hps
    obtain ⟨ih1, ih2⟩ := ih hps (drawPixel acc p.1 p.2)
    simp only [List.foldl_cons]
    constructor
    · intro r c
      rw [ih1]
      simp only [drawPixel, Framebuffer.cell_toggle, List.mem_cons]
      by_cases e : (r, c) = p
      · subst e; simp [hp]
      · have : ¬(r = p.1 ∧ c = p.2) := fun h => e (Prod.ext h.1 h.2)
        simp [e, this]
    · rw [ih2]
      have same : ∀ q ∈ ps, (drawPixel acc p.1 p.2).1.cell q.1 q.2 = acc.1.cell q.1 q.2 := by
        intro q hq
        have : ¬(q.1 = p.1 ∧ q.2 = p.2) := fun h => hp ((Prod.ext h.1 h.2 : q = p) ▸ hq)
        simp [drawPixel, Framebuffer.cell_toggle, this]
      have e : (∃ q ∈ ps, (drawPixel acc p.1 p.2).1.cell q.1 q.2 = true) ↔
          ∃ q ∈ ps, acc.1.cell q.1 q.2 = true :=
        exists_congr fun q => and_congr_right fun hq => by rw [same q hq]
      simp only [e, List.mem_cons, exists_eq_or_imp]
      simp [drawPixel, Bool.decide_or, Bool.or_assoc]

/-- A cell after a draw: toggled when it is a target, else as before (R192, R195). -/
theorem drawSprite_cell (m : Memory) (base vx vy : Nat) {n : Nat} (hn : n ≤ 32) (fb : Framebuffer)
    (r : Fin 32) (c : Fin 64) :
    (drawSprite m base vx vy n fb).1.cell r c =
      (fb.cell r c ^^ decide ((r, c) ∈ spriteTargets m base vx vy n)) := by
  rw [drawSprite_eq]; exact (drawPixels_spec _ (spriteTargets_nodup m base vx vy hn) _).1 r c

/-- The collision of a draw: some target was on before it (R192, R195). -/
theorem drawSprite_hit (m : Memory) (base vx vy : Nat) {n : Nat} (hn : n ≤ 32) (fb : Framebuffer) :
    (drawSprite m base vx vy n fb).2 =
      decide (∃ p ∈ spriteTargets m base vx vy n, fb.cell p.1 p.2 = true) := by
  rw [drawSprite_eq, (drawPixels_spec _ (spriteTargets_nodup m base vx vy hn) _).2]; simp

end Sys2Proof.Machine
end

