-- ==== Sys2Proof/Laws/PerInstr.lean ====
section
/-! SUPPORT. One lemma per instruction: its encoding carries the fixed bits of its row of the opcode table
(30_encoding.md R84, R86). -/

namespace Sys2Proof.Laws.CarriesItsRow

/-- Every row of R86 with the instruction's mnemonic selects its encoding, and there is such a row unless the
instruction is UNMATCHED. -/
def Statement (i : Instr) : Prop :=
  match opcodeRows.find? (fun r => r.mnemonic == mnemonicOf i) with
  | some r => r.selects (encode i) = true
  | none => mnemonicOf i = "UNMATCHED"

section
variable (x y : RegIx)

theorem selects_nnn {n1 : Nat} (h : n1 < 16) (nnn : BitVec 12) (m : String) :
    OpcodeRow.selects ⟨m, 0xF000, BitVec.ofNat 16 (n1 * 4096)⟩ (packNnn n1 nnn) = true := by
  have := nnn.isLt
  rw [OpcodeRow.selects, beq_iff_eq]
  apply BitVec.eq_of_toNat_eq
  simp only [BitVec.ofNat_eq_ofNat]
  rw [and_maskF000_toNat, packNnn_toNat h, BitVec.toNat_ofNat]; omega

theorem selects_xkk {n1 : Nat} (h : n1 < 16) (kk : Byte) (m : String) :
    OpcodeRow.selects ⟨m, 0xF000, BitVec.ofNat 16 (n1 * 4096)⟩ (packXkk n1 x kk) = true := by
  have := kk.isLt; have := x.isLt
  rw [OpcodeRow.selects, beq_iff_eq]
  apply BitVec.eq_of_toNat_eq
  simp only [BitVec.ofNat_eq_ofNat]
  rw [and_maskF000_toNat, packXkk_toNat h, BitVec.toNat_ofNat]; omega

theorem selects_x {n1 : Nat} (h : n1 < 16) (kk : Byte) (m : String) :
    OpcodeRow.selects ⟨m, 0xF0FF, BitVec.ofNat 16 (n1 * 4096 + kk.toNat)⟩ (packXkk n1 x kk) = true := by
  have := kk.isLt; have := x.isLt
  rw [OpcodeRow.selects, beq_iff_eq]
  apply BitVec.eq_of_toNat_eq
  simp only [BitVec.ofNat_eq_ofNat]
  rw [and_maskF0FF_toNat, packXkk_toNat h, BitVec.toNat_ofNat]; omega

theorem selects_xy {n1 : Nat} (h : n1 < 16) (n : Fin 16) (m : String) :
    OpcodeRow.selects ⟨m, 0xF00F, BitVec.ofNat 16 (n1 * 4096 + n.val)⟩ (packXyn n1 x y n) = true := by
  have := x.isLt; have := y.isLt; have := n.isLt
  rw [OpcodeRow.selects, beq_iff_eq]
  apply BitVec.eq_of_toNat_eq
  simp only [BitVec.ofNat_eq_ofNat]
  rw [and_maskF00F_toNat, packXyn_toNat h, BitVec.toNat_ofNat]; omega

theorem selects_xyn {n1 : Nat} (h : n1 < 16) (n : Fin 16) (m : String) :
    OpcodeRow.selects ⟨m, 0xF000, BitVec.ofNat 16 (n1 * 4096)⟩ (packXyn n1 x y n) = true := by
  have := x.isLt; have := y.isLt; have := n.isLt
  rw [OpcodeRow.selects, beq_iff_eq]
  apply BitVec.eq_of_toNat_eq
  simp only [BitVec.ofNat_eq_ofNat]
  rw [and_maskF000_toNat, packXyn_toNat h, BitVec.toNat_ofNat]; omega

theorem cls : Statement .cls := rfl
theorem ret : Statement .ret := rfl
theorem jp (nnn : BitVec 12) : Statement (.jp nnn) := selects_nnn (n1 := 0x1) (by decide) nnn "JP"
theorem call (nnn : BitVec 12) : Statement (.call nnn) := selects_nnn (n1 := 0x2) (by decide) nnn "CALL"
theorem seKk (kk : Byte) : Statement (.seKk x kk) := selects_xkk x (n1 := 0x3) (by decide) kk "SE_KK"
theorem sneKk (kk : Byte) : Statement (.sneKk x kk) := selects_xkk x (n1 := 0x4) (by decide) kk "SNE_KK"
theorem seR : Statement (.seR x y) := selects_xy x y (n1 := 0x5) (by decide) 0x0 "SE_R"
theorem ldKk (kk : Byte) : Statement (.ldKk x kk) := selects_xkk x (n1 := 0x6) (by decide) kk "LD_KK"
theorem addKk (kk : Byte) : Statement (.addKk x kk) := selects_xkk x (n1 := 0x7) (by decide) kk "ADD_KK"
theorem ldR : Statement (.ldR x y) := selects_xy x y (n1 := 0x8) (by decide) 0x0 "LD_R"
theorem or : Statement (.or x y) := selects_xy x y (n1 := 0x8) (by decide) 0x1 "OR"
theorem and : Statement (.and x y) := selects_xy x y (n1 := 0x8) (by decide) 0x2 "AND"
theorem xor : Statement (.xor x y) := selects_xy x y (n1 := 0x8) (by decide) 0x3 "XOR"
theorem addR : Statement (.addR x y) := selects_xy x y (n1 := 0x8) (by decide) 0x4 "ADD_R"
theorem sub : Statement (.sub x y) := selects_xy x y (n1 := 0x8) (by decide) 0x5 "SUB"
theorem shr : Statement (.shr x y) := selects_xy x y (n1 := 0x8) (by decide) 0x6 "SHR"
theorem subn : Statement (.subn x y) := selects_xy x y (n1 := 0x8) (by decide) 0x7 "SUBN"
theorem shl : Statement (.shl x y) := selects_xy x y (n1 := 0x8) (by decide) 0xE "SHL"
theorem sneR : Statement (.sneR x y) := selects_xy x y (n1 := 0x9) (by decide) 0x0 "SNE_R"
theorem ldI (nnn : BitVec 12) : Statement (.ldI nnn) := selects_nnn (n1 := 0xA) (by decide) nnn "LD_I"
theorem jpV0 (nnn : BitVec 12) : Statement (.jpV0 nnn) := selects_nnn (n1 := 0xB) (by decide) nnn "JP_V0"
theorem rnd (kk : Byte) : Statement (.rnd x kk) := selects_xkk x (n1 := 0xC) (by decide) kk "RND"
theorem drw (n : Fin 16) : Statement (.drw x y n) := selects_xyn x y (n1 := 0xD) (by decide) n "DRW"
theorem skp : Statement (.skp x) := selects_x x (n1 := 0xE) (by decide) 0x9E "SKP"
theorem sknp : Statement (.sknp x) := selects_x x (n1 := 0xE) (by decide) 0xA1 "SKNP"
theorem ldVxDt : Statement (.ldVxDt x) := selects_x x (n1 := 0xF) (by decide) 0x07 "LD_VX_DT"
theorem ldVxK : Statement (.ldVxK x) := selects_x x (n1 := 0xF) (by decide) 0x0A "LD_VX_K"
theorem ldDtVx : Statement (.ldDtVx x) := selects_x x (n1 := 0xF) (by decide) 0x15 "LD_DT_VX"
theorem ldStVx : Statement (.ldStVx x) := selects_x x (n1 := 0xF) (by decide) 0x18 "LD_ST_VX"
theorem addIVx : Statement (.addIVx x) := selects_x x (n1 := 0xF) (by decide) 0x1E "ADD_I_VX"
theorem ldFVx : Statement (.ldFVx x) := selects_x x (n1 := 0xF) (by decide) 0x29 "LD_F_VX"
theorem ldBVx : Statement (.ldBVx x) := selects_x x (n1 := 0xF) (by decide) 0x33 "LD_B_VX"
theorem ldMemVx : Statement (.ldMemVx x) := selects_x x (n1 := 0xF) (by decide) 0x55 "LD_MEM_VX"
theorem ldVxMem : Statement (.ldVxMem x) := selects_x x (n1 := 0xF) (by decide) 0x65 "LD_VX_MEM"
theorem unmatched (op : Word) : Statement (.unmatched op) := rfl

end

end Sys2Proof.Laws.CarriesItsRow
end

