-- ==== Sys2Proof/Tests/Slice0.lean ====
section
/-! SUPPORT. The model's own tests. Expected values come from spec/95_test_vectors.md (the vector's name is in the
docstring) or from a rule of spec/. Decode tests write the word's bits out from the patterns of 30_encoding.md
R86. The theorems named witness_<Obligation>_<clause> show a concrete state and operands that meet the hypotheses
of that statement, at the boundary of each clause. -/

namespace Sys2Proof.Tests

open Sys2Proof.Machine

/-! ### Helpers -/

/-- The reset state with some registers set. -/
def regs (vs : List (RegIx × Byte)) : State := vs.foldl (fun s p => s.setReg p.1 p.2) State.reset

/-- The same with an index register and bytes of memory from there up. -/
def regsAt (i : Word) (bytes : List Byte) (vs : List (RegIx × Byte)) : State :=
  ((regs vs).setI i).setMem (Memory.writeBytes [] i.toNat bytes)

/-- The same with keys pressed. -/
def keysDown (ks : List RegIx) (s : State) : State := ks.foldl (fun s k => keyDown k s) s

/-- Cells turned on. -/
def cellsOn (ps : List (Fin 32 × Fin 64)) (s : State) : State :=
  s.setFb (ps.foldl (fun fb p => fb.toggle p.1 p.2) s.fb)

/-- The state after one CYCLE with this random byte, the word placed where it fetches. -/
def after (op : Word) (s : State) (rand : Byte := 0) : State :=
  (perform (.cycle rand) (s.withFetchWord 16 op.toNat)).1

/-- The reset state with a word placed. -/
def ready (op : Word) : State := State.reset.withFetchWord 16 op.toNat

/-! ### Well-formed terms (30_encoding.md R88) -/

theorem test_wellFormed_refuses_matched_word : (Instr.unmatched 0x8124).wellFormed = false := by decide
theorem test_wellFormed_refuses_cls_word : (Instr.unmatched 0x00E0).wellFormed = false := by decide
theorem test_wellFormed_accepts : (Instr.unmatched 0x0123).wellFormed = true ∧ (Instr.shl 1 2).wellFormed = true := by
  decide

/-! ### Decoding: one word for every constructor, written bit by bit (R81, R86) -/

theorem test_decode_fixed : decode 0b0000_0000_1110_0000 = .cls ∧ decode 0b0000_0000_1110_1110 = .ret := by decide
theorem test_decode_nnn : decode 0b0001_1010_1011_1100 = .jp 0xABC ∧ decode 0b0010_0011_0000_0000 = .call 0x300 ∧
    decode 0b1010_0001_0010_0011 = .ldI 0x123 ∧ decode 0b1011_1111_1111_1111 = .jpV0 0xFFF := by decide
theorem test_decode_xkk : decode 0b0011_1010_0101_0101 = .seKk 0xA 0x55 ∧ decode 0b0100_1010_0101_0101 = .sneKk 0xA 0x55 ∧
    decode 0b0110_1010_1111_1111 = .ldKk 0xA 0xFF ∧ decode 0b0111_0011_0000_1010 = .addKk 0x3 0x0A ∧
    decode 0b1100_0011_0000_1111 = .rnd 0x3 0x0F := by decide
theorem test_decode_xy : decode 0b0101_0001_0010_0000 = .seR 1 2 ∧ decode 0b1001_0001_0010_0000 = .sneR 1 2 ∧
    decode 0b1000_0001_0010_0000 = .ldR 1 2 ∧ decode 0b1000_0001_0010_0001 = .or 1 2 ∧
    decode 0b1000_0001_0010_0010 = .and 1 2 ∧ decode 0b1000_0001_0010_0011 = .xor 1 2 := by decide
theorem test_decode_xy_flags : decode 0b1000_0001_0010_0100 = .addR 1 2 ∧ decode 0b1000_0001_0010_0101 = .sub 1 2 ∧
    decode 0b1000_0001_0010_0110 = .shr 1 2 ∧ decode 0b1000_0001_0010_0111 = .subn 1 2 ∧
    decode 0b1000_0001_0010_1110 = .shl 1 2 := by decide
theorem test_decode_xyn : decode 0b1101_0001_0010_1111 = .drw 0x1 0x2 0xF := by decide
theorem test_decode_keys : decode 0b1110_0010_1001_1110 = .skp 2 ∧ decode 0b1110_0010_1010_0001 = .sknp 2 ∧
    decode 0b1111_0101_0000_1010 = .ldVxK 5 := by decide
theorem test_decode_timers : decode 0b1111_0001_0000_0111 = .ldVxDt 1 ∧ decode 0b1111_0001_0001_0101 = .ldDtVx 1 ∧
    decode 0b1111_0001_0001_1000 = .ldStVx 1 := by decide
theorem test_decode_index : decode 0b1111_0001_0001_1110 = .addIVx 1 ∧ decode 0b1111_0001_0010_1001 = .ldFVx 1 ∧
    decode 0b1111_0001_0011_0011 = .ldBVx 1 ∧ decode 0b1111_0011_0101_0101 = .ldMemVx 3 ∧
    decode 0b1111_0011_0110_0101 = .ldVxMem 3 := by decide
/-- V-CYC-2 to V-CYC-8: words next to a matched one fall to none of their neighbours. -/
theorem test_decode_unmatched : decode 0x0123 = .unmatched 0x0123 ∧ decode 0x00EF = .unmatched 0x00EF ∧
    decode 0x912F = .unmatched 0x912F ∧ decode 0x812F = .unmatched 0x812F ∧ decode 0xE2A0 = .unmatched 0xE2A0 ∧
    decode 0xF185 = .unmatched 0xF185 := by decide
theorem test_decodeTableWord_rejects_longer : decodeTableWord 32 0x00E0 = none := by decide
theorem test_decodeBytes_rejects_short : decodeBytes [0x00] = .error .tooShort := rfl
theorem test_decodeBytes_bigEndian : decodeBytes [0x1A, 0xBC, 0x77] = .ok (.jp 0xABC, [0x77]) := rfl

/-! ### The cycle -/

/-- V-CYC-9. -/
theorem test_tick_and_floor : let t := after 0x0000 ((State.reset.setDT 3).setST 1)
    t.pc = 0x202 ∧ t.DT = 2 ∧ t.ST = 0 ∧ (after 0x0000 t).ST = 0 := by decide
/-- V-CYC-10: the fault is taken before anything is fetched, and there is no tick. -/
theorem test_fetch_fault : let t := (perform (.cycle 0) ((State.reset.setPc 0xFFF).setDT 3)).1
    t.fault = some (.fetchOutOfBounds 0xFFF) ∧ t.pc = 0xFFF ∧ t.DT = 3 := by decide
/-- V-CYC-11. -/
theorem test_fetch_last_word : let t := after 0x0000 (State.reset.setPc 0xFFE)
    t.pc = 0x1000 ∧ t.fault = none := by decide
/-- V-CYC-13. -/
theorem test_fault_is_latched : let t := after 0x00EE ((State.reset.setDT 3).setST 1)
    t.fault = some (.stackUnderflow 0x200) ∧ t.DT = 3 ∧
      (perform (.cycle 0) t).2 = .cycled (.faulted (.stackUnderflow 0x200)) ∧ (perform (.cycle 0) t).1.DT = 3 := by decide

/-! ### Control flow -/

/-- V-CF-1. -/
theorem test_jp : (after 0x1ABC State.reset).pc = 0xABC := by decide
/-- V-CF-4. -/
theorem test_call : let t := after 0x2300 ((State.reset.setPc 0x204).setSp 15)
    t.stack[15] = 0x204 ∧ t.stack[14] = 0 ∧ t.sp = 16 ∧ t.pc = 0x300 := by decide
/-- V-CF-5. -/
theorem test_call_full : let t := after 0x2300 ((State.reset.setPc 0x204).setSp 16)
    t.fault = some (.stackOverflow 0x204) ∧ t.sp = 16 ∧ t.pc = 0x204 := by decide
/-- V-CF-6. -/
theorem test_ret : let t := after 0x00EE ((State.reset.setStack (State.reset.stack.set 0 0xABC)).setSp 1)
    t.sp = 0 ∧ t.pc = 0xABE ∧ t.stack[0] = 0xABC := by decide
/-- V-CF-9, V-CF-10. -/
theorem test_jpV0 : (after 0xB300 (regs [(0, 0x04), (3, 0x77)])).pc = 0x304 ∧
    (after 0xBFFF (regs [(0, 0xFF)])).pc = 0x10FE := by decide
/-- V-CF-11, V-CF-12. -/
theorem test_seKk : (after 0x3A55 (regs [(0xA, 0x55)])).pc = 0x204 ∧ (after 0x3A55 (regs [(0xA, 0x54)])).pc = 0x202 := by
  decide
/-- V-CF-13, V-CF-14. -/
theorem test_sneKk : (after 0x4A55 (regs [(0xA, 0x55)])).pc = 0x202 ∧ (after 0x4A55 (regs [(0xA, 0x54)])).pc = 0x204 := by
  decide
/-- V-CF-15, V-CF-16. -/
theorem test_seR : (after 0x5120 (regs [(1, 9), (2, 9)])).pc = 0x204 ∧ (after 0x5120 (regs [(1, 9), (2, 8)])).pc = 0x202 := by
  decide
/-- V-CF-18, V-CF-19. -/
theorem test_sneR : (after 0x9120 (regs [(1, 9), (2, 9)])).pc = 0x202 ∧ (after 0x9120 (regs [(1, 9), (2, 8)])).pc = 0x204 := by
  decide

/-! ### Loads, arithmetic, logic, random -/

/-- V-ALU-1. -/
theorem test_ldKk : (after 0x6AFF State.reset).reg 0xA = 0xFF := by decide
/-- V-ALU-3, V-ALU-4. -/
theorem test_addKk : let t := after 0x730A (regs [(3, 0xFA), (15, 1)])
    t.reg 3 = 0x04 ∧ t.reg VF = 1 ∧ (after 0x7F02 (regs [(15, 0xFF)])).reg VF = 1 := by decide
/-- V-ALU-6. -/
theorem test_ldR : let t := after 0x8120 (regs [(1, 0x01), (2, 0xAB), (15, 1)])
    t.reg 1 = 0xAB ∧ t.reg 2 = 0xAB ∧ t.reg VF = 1 := by decide
/-- V-ALU-7. -/
theorem test_or : let t := after 0x8121 (regs [(1, 0xF0), (2, 0x0F), (15, 1)])
    t.reg 1 = 0xFF ∧ t.reg VF = 1 := by decide
/-- V-ALU-8. -/
theorem test_and : let t := after 0x8122 (regs [(1, 0xF3), (2, 0x3C), (15, 1)])
    t.reg 1 = 0x30 ∧ t.reg VF = 1 := by decide
/-- V-ALU-9. -/
theorem test_xor : let t := after 0x8123 (regs [(1, 0xF3), (2, 0x3C), (15, 1)])
    t.reg 1 = 0xCF ∧ t.reg VF = 1 := by decide
/-- V-ALU-11, V-ALU-17. -/
theorem test_addR : let t := after 0x8124 (regs [(1, 0xFF), (2, 0x01)])
    let u := after 0x81F4 (regs [(1, 0xFF), (15, 1)])
    t.reg 1 = 0 ∧ t.reg VF = 1 ∧ u.reg 1 = 0 ∧ u.reg VF = 1 := by decide
/-- V-ALU-15, V-ALU-16: the flag overwrites the sum. -/
theorem test_addR_into_flag : (after 0x8F14 (regs [(15, 0xC8), (1, 0x64)])).reg VF = 1 ∧
    (after 0x8F14 (regs [(15, 0x01), (1, 0x02)])).reg VF = 0 := by decide
/-- V-ALU-19, V-ALU-21. -/
theorem test_sub : let t := after 0x8125 (regs [(1, 0x05), (2, 0x0A)])
    let u := after 0x8125 (regs [(1, 7), (2, 7)])
    t.reg 1 = 0xFB ∧ t.reg VF = 0 ∧ u.reg 1 = 0 ∧ u.reg VF = 1 := by decide
/-- V-ALU-26, V-ALU-30. -/
theorem test_shr : let t := after 0x8126 (regs [(1, 0x04), (2, 0xFF), (15, 1)])
    t.reg 1 = 0x02 ∧ t.reg VF = 0 ∧ t.reg 2 = 0xFF ∧ (after 0x8F06 (regs [(15, 0x02)])).reg VF = 0 := by decide
/-- V-ALU-31, V-ALU-32. -/
theorem test_subn : let t := after 0x8127 (regs [(1, 0x0A), (2, 0x05)])
    let u := after 0x8127 (regs [(1, 0x05), (2, 0x0A)])
    t.reg 1 = 0xFB ∧ t.reg VF = 0 ∧ u.reg 1 = 5 ∧ u.reg VF = 1 := by decide
/-- V-ALU-36, V-ALU-37. -/
theorem test_shl : let t := after 0x812E (regs [(1, 0xFF)])
    let u := after 0x812E (regs [(1, 0x40), (15, 1)])
    t.reg 1 = 0xFE ∧ t.reg VF = 1 ∧ u.reg 1 = 0x80 ∧ u.reg VF = 0 := by decide
/-- V-RND-1, V-RND-4: the random byte given from outside. -/
theorem test_rnd : (after 0xC30F State.reset (rand := 0xA7)).reg 3 = 0x07 ∧
    (after 0xCF0F State.reset (rand := 0xFF)).reg VF = 0x0F := by decide

/-! ### The index register and memory -/

/-- V-IDX-1. -/
theorem test_ldI : (after 0xA123 (State.reset.setI 0xFFFF)).I = 0x0123 := by decide
/-- V-IDX-4. -/
theorem test_addIVx : let t := after 0xF11E ((regs [(1, 1), (15, 7)]).setI 0xFFFF)
    t.I = 0 ∧ t.reg VF = 7 := by decide
/-- V-IDX-7, V-IDX-8. -/
theorem test_ldFVx : (after 0xF129 (regs [(1, 0x1A)])).I = 0x0032 ∧ (after 0xF129 (regs [(1, 0xFF)])).I = 0x004B := by
  decide
/-- V-IDX-13. -/
theorem test_ldBVx : let t := after 0xF133 (regsAt 0xFFD [] [(1, 0x80)])
    t.mem.read 0xFFD = 1 ∧ t.mem.read 0xFFE = 2 ∧ t.mem.read 0xFFF = 8 ∧ t.I = 0xFFD := by decide
/-- V-IDX-14, V-IDX-15. -/
theorem test_ldBVx_fault : let t := after 0xF133 (regsAt 0xFFE [] [(1, 0x80)])
    t.fault = some (.memIndexOutOfRange 0xFFE 0x1000 0x200) ∧ t.mem.read 0xFFE = 0 ∧
      (after 0xF133 (regsAt 0xFFFF [] [])).fault = some (.memIndexOutOfRange 0xFFFF 0x10001 0x200) := by decide
/-- V-IDX-16. -/
theorem test_ldMemVx : let t := after 0xF355 (regsAt 0x300 [] [(0, 1), (1, 2), (2, 3), (3, 4), (4, 5)])
    t.mem.read 0x300 = 1 ∧ t.mem.read 0x303 = 4 ∧ t.mem.read 0x304 = 0 ∧ t.I = 0x300 := by decide
/-- V-IDX-19. -/
theorem test_ldMemVx_fault : let t := after 0xFF55 (regsAt 0xFF1 [] [(0, 1)])
    t.fault = some (.memIndexOutOfRange 0xFF1 0x1000 0x200) ∧ t.mem.read 0xFF1 = 0 := by decide
/-- V-IDX-21. -/
theorem test_ldVxMem : let t := after 0xF365 (regsAt 0x300 [1, 2, 3, 4, 5] [(4, 0x77)])
    t.reg 0 = 1 ∧ t.reg 3 = 4 ∧ t.reg 4 = 0x77 ∧ t.I = 0x300 := by decide
/-- V-IDX-23, V-IDX-10 (the default FONT, log entry 1). -/
theorem test_ldVxMem_fault_and_font : (after 0xF165 (regsAt 0xFFF [] [])).fault =
      some (.memIndexOutOfRange 0xFFF 0x1000 0x200) ∧
    (after 0xF465 State.reset).reg 0 = 0xF0 ∧ (after 0xF465 State.reset).reg 1 = 0x90 := by decide
/-- Writing the reset content takes the entry out of the list again (log entry 10). -/
theorem test_memory_canonical : Memory.write (Memory.write [] 0x300 5) 0x300 0 = [] ∧
    Memory.write (Memory.write [] 0x301 5) 0x300 6 = [(0x300, 6), (0x301, 5)] ∧ Memory.write [] 0 0xF0 = [] := by decide

/-! ### Display -/

/-- V-DRW-1. -/
theorem test_cls : let t := after 0x00E0 (cellsOn [(0, 0), (31, 63)] (regs [(15, 1)]))
    t.fb.cell 0 0 = false ∧ t.fb.cell 31 63 = false ∧ t.reg VF = 1 := by decide
/-- V-DRW-5: both edges wrap per pixel. -/
theorem test_drw_wraps : let t := after 0xD121 (regsAt 0x300 [0xFF] [(1, 0x3E), (2, 0x1F)])
    t.fb.cell 31 62 = true ∧ t.fb.cell 31 63 = true ∧ t.fb.cell 31 0 = true ∧ t.fb.cell 31 5 = true ∧
      t.fb.cell 31 6 = false ∧ t.fb.cell 0 0 = false ∧ t.reg VF = 0 := by decide
/-- V-DRW-7: bit 7 is the leftmost (log entry 5), and a cell that goes off is a collision. -/
theorem test_drw_collides : let t := after 0xD121 (cellsOn [(0, 1), (0, 2)] (regsAt 0x300 [0xC0] []))
    t.fb.cell 0 0 = true ∧ t.fb.cell 0 1 = false ∧ t.fb.cell 0 2 = true ∧ t.reg VF = 1 := by decide
/-- V-DRW-3, V-DRW-12. -/
theorem test_drw_empty_and_fault : let t := after 0xD120 (regsAt 0xFFFF [] [(15, 1)])
    t.fault = none ∧ t.reg VF = 0 ∧
      (after 0xD122 (regsAt 0xFFF [0xFF] [])).fault = some (.memIndexOutOfRange 0xFFF 0x1000 0x200) := by decide

/-! ### Keypad and timers -/

/-- V-KEY-1, V-KEY-2. -/
theorem test_skp : (after 0xE29E (keysDown [5] (regs [(2, 5)]))).pc = 0x204 ∧
    (after 0xE29E (keysDown [4] (regs [(2, 5)]))).pc = 0x202 := by decide
/-- V-KEY-6: the index is not masked. -/
theorem test_skp_fault : (after 0xE29E (regs [(2, 0x10)])).fault = some (.keyIndexOutOfRange 0x10 0x200) := by decide
/-- V-KEY-3, V-KEY-4. -/
theorem test_sknp : (after 0xE2A1 (keysDown [5] (regs [(2, 5)]))).pc = 0x202 ∧
    (after 0xE2A1 (regs [(2, 5)])).pc = 0x204 := by decide
/-- V-KEY-7. -/
theorem test_sknp_fault : (after 0xE2A1 (regs [(2, 0xFF)])).fault = some (.keyIndexOutOfRange 0xFF 0x200) := by decide
/-- V-KEY-9, V-KEY-11. -/
theorem test_ldVxK : let t := after 0xF50A (keysDown [9, 4] (regs [(5, 0x77)]))
    t.reg 5 = 4 ∧ t.pc = 0x202 ∧ (after 0xF50A (keysDown [0] (regs [(5, 0x77)]))).reg 5 = 0 := by decide
/-- V-KEY-8: the tick still happens. -/
theorem test_ldVxK_waits : let t := after 0xF50A ((regs [(5, 0x77)]).setDT 3)
    t.pc = 0x200 ∧ t.reg 5 = 0x77 ∧ t.DT = 2 ∧ t.fault = none := by decide
/-- V-TMR-1. -/
theorem test_ldVxDt : let t := after 0xF107 (State.reset.setDT 0x3C)
    t.reg 1 = 0x3C ∧ t.DT = 0x3B := by decide
/-- V-TMR-3, V-TMR-5. -/
theorem test_ldDtVx : (after 0xF115 (regs [(1, 1)])).DT = 0 ∧
    (after 0xF115 ((regs [(1, 0xFF)]).setST 5)).DT = 0xFE ∧ (after 0xF115 ((regs [(1, 0xFF)]).setST 5)).ST = 4 := by decide
/-- V-TMR-6. -/
theorem test_ldStVx : let t := after 0xF118 ((regs [(1, 2)]).setDT 7)
    t.ST = 1 ∧ t.DT = 6 := by decide

/-! ### The fallback -/

/-- V-CYC-4, V-CYC-7. -/
theorem test_unmatched : (after 0x5121 (regs [(1, 9), (2, 9)])).pc = 0x202 ∧
    (after 0xE29F (regs [(2, 0xFF)])).pc = 0x202 ∧ (after 0xE29F (regs [(2, 0xFF)])).fault = none := by decide

/-! ### Host operations -/

/-- V-HOST-3 to V-HOST-6. -/
theorem test_load_bounds : (load 0x1FF [1] State.reset).2 = .loadOutOfBounds ∧
    (load 0xFFF [0xAB] State.reset).1.mem.read 0xFFF = 0xAB ∧ (load 0x1000 [] State.reset).2 = .ok ∧
    (load 0x1000 [1] State.reset).2 = .loadOutOfBounds := by decide
/-- V-HOST-8. -/
theorem test_keys : (keyDown 3 (keyDown 3 State.reset)).key[3] = true ∧
    (keyUp 3 (keyDown 3 State.reset)).key[3] = false := by decide
/-- R228: an index of a wider type is rejected and changes nothing. -/
theorem test_wide_key : (withWideKey 16 keyDown State.reset).2 = .indexRejected ∧
    (withWideKey 15 keyDown State.reset).1.key[15] = true := by decide
/-- V-HOST-9. -/
theorem test_fbRead : (fbRead (cellsOn [(1, 2)] State.reset))[66] = true ∧
    (fbRead (cellsOn [(1, 2)] State.reset))[65] = false := by
  constructor <;> (rw [fbRead, Vector.getElem_ofFn]; rfl)
/-- V-HOST-12. -/
theorem test_load_on_faulted : let s := State.reset.setFault (some (.stackUnderflow 0x200))
    let t := (perform (.load 0x200 [0x00, 0xE0]) s).1
    t.mem.read 0x201 = 0xE0 ∧ (perform (.cycle 0) t).2 = .cycled (.faulted (.stackUnderflow 0x200)) := by decide

/-! ### Witnesses: the hypotheses of the statements can be met -/

/-- Every row's own pattern is a word that its mask and match value select: the hypothesis of EncodedBy, and of the
first two clauses of DecoderAgreesWithOpcodeTable, for every row. -/
theorem witness_EncodedBy_every_row : ∀ r ∈ opcodeRows, r.selects r.pattern = true := by decide
theorem witness_DecoderAgreesWithOpcodeTable_none : ∀ r ∈ opcodeRows, r.selects 0x5121 = false := by decide
theorem witness_UnmatchedWordsOnlyAdvance : ∀ r ∈ opcodeRows, r.selects 0x812F = false := by decide
theorem witness_DecodeOfEncodeIsTheInstruction : (Instr.unmatched 0xFFFF).wellFormed = true ∧
    (Instr.drw 15 15 15).wellFormed = true := by decide

theorem witness_FetchIsBigEndianAtAnyPc_last : (State.reset.setPc 4094).pc.toNat ≤ 4094 := by decide
theorem witness_FetchPastTheEndFaults_first : (State.reset.setPc 4095).fault = none ∧
    4096 ≤ (State.reset.setPc 4095).pc.toNat + 1 := by decide
theorem witness_FetchPastTheEndFaults_last : 4096 ≤ (State.reset.setPc 65535).pc.toNat + 1 := by decide
theorem witness_StepRunsTheDecodedInstruction_ok : Runs (ready 0x6AFF) (.ldKk 0xA 0xFF) ∧
    ∃ t, exec (.ldKk 0xA 0xFF) (ready 0x6AFF) = .next t ∧ t.fault = none := ⟨⟨rfl, by decide, by decide⟩, _, rfl, rfl⟩
theorem witness_StepRunsTheDecodedInstruction_fault : Runs (ready 0x00EE) .ret ∧
    ∃ t, exec .ret (ready 0x00EE) = .next t ∧ t.fault ≠ none := ⟨⟨rfl, by decide, by decide⟩, _, rfl, by decide⟩
theorem witness_StepRunsTheDecodedInstruction_last_pc :
    Runs ((State.reset.setPc 4094).withFetchWord 16 0x00E0) .cls := ⟨rfl, by decide, by decide⟩
theorem witness_FaultedMachineIsInert : (State.reset.setFault (some (.stackUnderflow 0x200))).fault =
    some (.stackUnderflow 0x200) := rfl
theorem witness_TickLowersEachTimerByOneToAFloor : 0 < (State.reset.setDT 1).DT.toNat ∧ State.reset.DT.toNat = 0 ∧
    0 < (State.reset.setST 255).ST.toNat ∧ State.reset.ST.toNat = 0 := by decide
theorem witness_RandomByteReachesOnlyRnd : ∀ x kk, ¬ Runs (ready 0x6AFF) (.rnd x kk) := by
  rintro x kk ⟨-, -, h⟩
  have e : Instr.ldKk 0xA 0xFF = .rnd x kk := h
  cases e

theorem witness_EachInstructionTakesOnlyItsOwnFault_memory :
    ∃ t f, exec (.ldBVx 0) (State.reset.setI 0xFFE) = .next t ∧ t.fault = some f := ⟨_, _, rfl, rfl⟩
theorem witness_EachInstructionTakesOnlyItsOwnFault_key :
    ∃ t f, exec (.skp 2) (regs [(2, 16)]) = .next t ∧ t.fault = some f := ⟨_, _, rfl, rfl⟩
theorem witness_EachInstructionTakesOnlyItsOwnFault_stack :
    (∃ t f, exec (.call 0x300) (State.reset.setSp 16) = .next t ∧ t.fault = some f) ∧
    ∃ t f, exec .ret State.reset = .next t ∧ t.fault = some f := ⟨⟨_, _, rfl, rfl⟩, _, _, rfl, rfl⟩
theorem witness_PcFollowsThePolicyOfItsClass : State.reset.fault = none ∧
    (∃ t, exec (.jpV0 0xFFF) State.reset = .next t ∧ t.fault = none) ∧
    ∃ t, exec .ret State.reset = .next t ∧ t.fault ≠ none := ⟨rfl, ⟨_, rfl, rfl⟩, _, rfl, by decide⟩
theorem witness_EachPartHasOnlyItsWriters : ∃ t, exec (.call 0x300) State.reset = .next t ∧ t.sp ≠ State.reset.sp ∧
    t.stack ≠ State.reset.stack := ⟨_, rfl, by decide, by decide⟩
theorem witness_EachPartHasOnlyItsWriters_fb_and_mem :
    (∃ t, exec .cls (cellsOn [(0, 0)] State.reset) = .next t ∧ t.fb ≠ (cellsOn [(0, 0)] State.reset).fb) ∧
    ∃ t, exec (.ldMemVx 0) (regsAt 0x300 [] [(0, 1)]) = .next t ∧ t.mem ≠ (regsAt 0x300 [] [(0, 1)]).mem :=
  ⟨⟨_, rfl, fun h => by have e := congrArg (fun fb => Framebuffer.cell fb 0 0) h; revert e; decide⟩, _, rfl, by decide⟩
theorem witness_FlagRegisterHasOnlyItsWriters : ∃ t, exec (.shr 1 2) (regs [(1, 1)]) = .next t ∧
    t.reg VF ≠ (regs [(1, 1)]).reg VF := ⟨_, rfl, by decide⟩

theorem witness_CallPushesItsOwnAddress_room : (State.reset.setSp 15).sp.val < 16 := by decide
theorem witness_CallPushesItsOwnAddress_full : (State.reset.setSp 16).sp.val = 16 := by decide
theorem witness_ReturnPopsAndAddsTwo_some : (State.reset.setSp 16).sp.val = (15 : Fin 16).val + 1 ∧
    (State.reset.setSp 1).sp.val = (0 : Fin 16).val + 1 := by decide
theorem witness_ReturnPopsAndAddsTwo_empty : State.reset.sp.val = 0 := by decide
theorem witness_ReturnResumesAfterItsCall : (State.reset.setSp 15).sp.val < 16 ∧
    ∃ t, exec (.call 0xFFF) (State.reset.setSp 15) = .next t ∧ t.sp = t.sp ∧ t.stack = t.stack :=
  ⟨by decide, _, rfl, rfl, rfl⟩
theorem witness_RegisterSkipsTestTheirCondition : ((regs [(1, 9)]).reg 1).toNat = (9 : Byte).toNat ∧
    ((regs [(1, 9)]).reg 1).toNat ≠ ((regs [(1, 9)]).reg 2).toNat := by decide
theorem witness_RegisterSkipsTestTheirCondition_unmatched : (opN1 0x5121).val = 5 ∧ (opN 0x5121).val ≠ 0 ∧
    (opN1 0x912F).val = 9 ∧ (opN 0x912F).val ≠ 0 := by decide
theorem witness_WritesResultAndFlag_plain_destination : (1 : RegIx) ≠ VF ∧ ∃ r : RegIx, r ≠ 1 ∧ r ≠ VF := by decide

theorem witness_DecimalDigitsAreStored : (State.reset.setI 4093).I.toNat + 2 ≤ 4095 ∧
    4095 < (State.reset.setI 4094).I.toNat + 2 := by decide
theorem witness_RegisterBlock : (State.reset.setI 4080).I.toNat + (15 : RegIx).val ≤ 4095 ∧
    4095 < (State.reset.setI 4081).I.toNat + (15 : RegIx).val ∧
    (State.reset.setI 4095).I.toNat + (0 : RegIx).val ≤ 4095 ∧
    4095 < (State.reset.setI 4096).I.toNat + (0 : RegIx).val := by decide
theorem witness_StoreThenLoadRecoversRegisters : (regsAt 4092 [] [(0, 1)]).I.toNat + (3 : RegIx).val ≤ 4095 ∧
    ∃ t, exec (.ldMemVx 3) (regsAt 4092 [] [(0, 1)]) = .next t := ⟨by decide, _, rfl⟩
theorem witness_StoredBytesAreFetched_store : (regsAt 0x300 [] []).I.toNat + (1 : RegIx).val ≤ 4095 ∧
    (1 : RegIx).val = (0 : RegIx).val + 1 ∧ (1 : RegIx) ≤ 1 ∧
    (0x300 : Word).toNat = (regsAt 0x300 [] []).I.toNat + (0 : RegIx).val ∧
    ∃ t, exec (.ldMemVx 1) (regsAt 0x300 [] []) = .next t := ⟨by decide, by decide, by decide, by decide, _, rfl⟩
theorem witness_StoredBytesAreFetched_load : 0x200 ≤ (State.reset.setPc 4094).pc.toNat ∧
    (State.reset.setPc 4094).pc.toNat + 2 + ([] : List Byte).length ≤ 4096 := by decide
theorem witness_CanonicalMemoriesThatReadAlikeAreEqual :
    Memory.wf (Memory.write (Memory.write [] 0x301 5) 0x300 6) ∧ Memory.wf [(0x300, 6), (0x301, 5)] ∧
    ∀ a, Memory.read (Memory.write (Memory.write [] 0x301 5) 0x300 6) a = Memory.read [(0x300, 6), (0x301, 5)] a :=
  ⟨by decide, by decide, fun _ => rfl⟩

theorem witness_DrawTogglesExactlyItsTargets_fits : (State.reset.setI 4081).I.toNat + (15 : Fin 16).val - 1 ≤ 4095 ∧
    (0 : Fin 16).val = 0 ∧ (State.reset.setI 65535).I.toNat = 65535 := by decide
theorem witness_DrawTogglesExactlyItsTargets_fault : (15 : Fin 16).val ≠ 0 ∧
    4095 < (State.reset.setI 4082).I.toNat + (15 : Fin 16).val - 1 ∧
    4095 < (State.reset.setI 4096).I.toNat + (1 : Fin 16).val - 1 := by decide
/-- A target cell that is on, so that the collision clause is met. -/
theorem witness_DrawTogglesExactlyItsTargets_hit : ∃ (row : Fin 32) (col : Fin 64) (r c : Nat), r < 1 ∧ c < 8 ∧
    ((regsAt 0x300 [0xC0] []).mem.read (0x300 + r)).toNat.testBit (7 - c) = true ∧
    row.val = (0 + r) % 32 ∧ col.val = (0 + c) % 64 ∧
    (cellsOn [(0, 1)] (regsAt 0x300 [0xC0] [])).fb.cell row col = true :=
  ⟨0, 1, 0, 1, by decide, by decide, by decide, by decide, by decide, by decide⟩
theorem witness_DrawingTwiceRestoresTheFramebuffer : (1 : RegIx) ≠ VF ∧ (2 : RegIx) ≠ VF ∧
    ((1 : Fin 16).val = 0 ∨ (regsAt 0xFFF [0xFF] []).I.toNat + (1 : Fin 16).val - 1 ≤ 4095) ∧
    ∃ t, exec (.drw 1 2 1) (regsAt 0xFFF [0xFF] []) = .next t := ⟨by decide, by decide, by decide, _, rfl⟩

theorem witness_KeySkipsTestTheIndexedKey : ((regs [(2, 15)]).reg 2).toNat = (15 : RegIx).val ∧
    15 < ((regs [(2, 16)]).reg 2).toNat := by decide
theorem witness_KeyWaitTakesTheLeastKeyOrWaits_pressed : (keysDown [9, 4] State.reset).key[(4 : RegIx)] = true ∧
    ∀ j : RegIx, j < 4 → (keysDown [9, 4] State.reset).key[j] = false := by decide
theorem witness_KeyWaitTakesTheLeastKeyOrWaits_none : (∀ k : RegIx, (ready 0xF50A).key[k] = false) ∧
    Runs (ready 0xF50A) (.ldVxK 5) := ⟨by decide, rfl, by decide, by decide⟩
theorem witness_WaitingMachineOnlyTicks : Runs ((ready 0xF50A).setDT 3) (.ldVxK 5) ∧
    ∀ k : RegIx, ((ready 0xF50A).setDT 3).key[k] = false := ⟨⟨rfl, by decide, by decide⟩, by decide⟩
theorem witness_TimerInstructionsMoveBeforeTheTick : Runs (ready 0xF107) (.ldVxDt 1) ∧ Runs (ready 0xF115) (.ldDtVx 1) ∧
    Runs (ready 0xF118) (.ldStVx 1) :=
  ⟨⟨rfl, by decide, by decide⟩, ⟨rfl, by decide, by decide⟩, rfl, by decide, by decide⟩

theorem witness_NoInstructionReadsTheSoundTimer : (∀ x, Instr.ldVxDt 1 ≠ .ldStVx x) ∧
    ∃ t, exec (.ldVxDt 1) State.reset = .next t := ⟨nofun, _, rfl⟩

theorem witness_EveryStepKeepsTheInvariant : Inv State.reset ∧ ∃ t, step State.reset = .next t :=
  ⟨⟨by decide, by decide, by decide⟩, _, rfl⟩
/-- The highest `pc` the invariant allows, met by a state about to fault. -/
theorem witness_EveryStepKeepsTheInvariant_highest_pc : Inv (State.reset.setPc 0x10FE) ∧
    ∃ t, step (State.reset.setPc 0x10FE) = .next t := ⟨⟨by decide, by decide, by decide⟩, _, rfl⟩
theorem witness_ReachableStatesMeetTheInvariant : Reachable (perform (.keyDown 3) (initialise Config.font 0)).1 :=
  .perform _ _ (.init _ _)
theorem witness_LoadWritesExactlyItsBytes : (0x200 ≤ 0xFFF ∧ 0xFFF + ([0xAB] : List Byte).length ≤ 4096) ∧
    (0x1FF < 0x200 ∨ 4096 < 0x1FF + ([0xAB] : List Byte).length) ∧
    (0x1000 < 0x200 ∨ 4096 < 0x1000 + ([0xAB] : List Byte).length) := by decide
theorem witness_OnlyKeyOperationsSetKeys : (∀ j, HostOp.cycle 0 ≠ .keyDown j) ∧ (∀ j, HostOp.cycle 0 ≠ .keyUp j) ∧
    ∀ font, HostOp.cycle 0 ≠ .init font := ⟨nofun, nofun, nofun⟩
theorem witness_AccessorsReadWithoutChange : (2047 : Fin 2048).val = 64 * (31 : Fin 32).val + (63 : Fin 64).val := by decide
theorem witness_OnlyInitClearsAFault : (State.reset.setFault (some (.stackOverflow 0x200))).fault =
    some (.stackOverflow 0x200) ∧ (∀ font, HostOp.load 0x200 [0] ≠ .init font) ∧
    ∀ rand, HostOp.load 0x200 [0] ≠ .cycle rand := ⟨rfl, nofun, nofun⟩
theorem witness_PlacedWordIsFetched : (State.reset.setPc 4094).fault = none ∧
    (State.reset.setPc 4094).pc.toNat + 1 < 4096 := by decide

end Sys2Proof.Tests
end

section
/-! PROOFS. INIT (10_state.md R35, 70_reset_and_hazards.md R280): what memory holds after it, what the
first fetch reads, and the statement about every piece of state. -/

namespace Sys2Proof.Machine

/-! ### What INIT gives -/

section
variable (font : Font) (draws : Nat)

/-- INIT's answer is the initial state, and of the state before only the model's own `draws` is in it
(log entry 2). -/
theorem perform_init (s : State) : perform (.init font) s = (initialise font s.draws, .none) := rfl

@[simp] theorem initialise_V : (initialise font draws).V = Vector.replicate 16 0 := rfl
@[simp] theorem initialise_pc : (initialise font draws).pc = 0x200 := rfl
@[simp] theorem initialise_I : (initialise font draws).I = 0 := rfl
@[simp] theorem initialise_sp : (initialise font draws).sp = 0 := rfl
@[simp] theorem initialise_stack : (initialise font draws).stack = Vector.replicate 16 0 := rfl
@[simp] theorem initialise_DT : (initialise font draws).DT = 0 := rfl
@[simp] theorem initialise_ST : (initialise font draws).ST = 0 := rfl
@[simp] theorem initialise_key : (initialise font draws).key = Vector.replicate 16 false := rfl
@[simp] theorem initialise_fb :
    (initialise font draws).fb = Vector.replicate 32 (Vector.replicate 64 false) := rfl
@[simp] theorem initialise_mem : (initialise font draws).mem = Memory.writeBytes [] 0 font.toList := rfl
@[simp] theorem initialise_fault : (initialise font draws).fault = none := rfl

@[simp] theorem initialise_reg (r : RegIx) : (initialise font draws).reg r = 0 := by simp [State.reg]

@[simp] theorem initialise_cell (r : Fin 32) (c : Fin 64) : (initialise font draws).fb.cell r c = false := by
  simp [Framebuffer.cell]

/-- The first 80 cells hold the FONT that INIT was given, not the default one (R31, R35). -/
theorem initialise_read_font (i : Fin 80) : (initialise font draws).mem.read i.val = font[i] := by
  have hi : i.val < font.toList.length := by simp
  have h := Memory.read_writeBytes_inside font.toList [] (a := 0) hi (by omega)
  simpa using h

/-- From 0x050 on memory is untouched by the FONT and reads as 0 (R35). -/
theorem initialise_read_above {a : Nat} (h : 80 ≤ a) : (initialise font draws).mem.read a = 0 := by
  rw [initialise_mem, Memory.read_writeBytes_above font.toList [] (by simpa using h)]
  simp [Memory.read, Config.resetByte, Nat.not_lt.mpr h]

/-- The first fetch reads 0x200 and 0x201 (R280). -/
theorem fetch_initialise : fetch (initialise font draws) = some
    (wordOfBytes ((initialise font draws).mem.read 0x200) ((initialise font draws).mem.read 0x201)) :=
  fetch_ok (s := initialise font draws) (by simp)

end

/-- Settles O47: INIT's answer is `initialise`, whose fields, FONT bytes, zeros above them and first fetch are
the lemmas above. -/
theorem initSetsEveryPieceOfState : Obligations.InitSetsEveryPieceOfState := by
  intro font before
  refine ⟨initialise font before.draws, perform_init font before, initialise_reg _ _, ?pc, initialise_I _ _, ?sp,
    ?stack, initialise_DT _ _, initialise_ST _ _, ?key, initialise_cell _ _, initialise_read_font _ _, ?zeros,
    initialise_fault _ _, fetch_initialise _ _⟩
  case pc => simp
  case sp => simp
  case stack => simp
  case key => simp
  case zeros => exact fun _ hfont _ => initialise_read_above _ _ hfont

end Sys2Proof.Machine
end

section
/-! PROOFS. The fields of an instruction word (30_encoding.md R81): each field and each byte as a sum of the
nibbles it holds. -/

namespace Sys2Proof

/-! ### Bytes and operand fields in nibbles -/

section
variable (op : Word)

theorem highByte_toNat_eq_nibbles : (highByte op).toNat = (opN1 op).val * 16 + (opX op).val := by
  rw [highByte_toNat, opN1_val, opX_val]; omega

theorem lowByte_toNat_eq_nibbles : (lowByte op).toNat = (opY op).val * 16 + (opN op).val := by
  rw [lowByte_toNat, opY_val, opN_val]; omega

/-- R81 defines `kk` as the low byte. -/
theorem opKk_eq_lowByte : opKk op = lowByte op := rfl

theorem opNnn_toNat_eq_opX_lowByte : (opNnn op).toNat = (opX op).val * 256 + (lowByte op).toNat := by
  rw [opNnn_toNat, opX_val, lowByte_toNat]; omega

theorem toNat_eq_highByte_lowByte : op.toNat = (highByte op).toNat * 256 + (lowByte op).toNat := by
  rw [← wordOfBytes_toNat, wordOfBytes_high_low]

end

/-- Settles O1: the two bytes are two nibbles each; the word is its two bytes, `kk` the low byte, and `nnn` the
nibble `x` before the low byte. -/
theorem fieldsOfAnInstructionWord : Obligations.FieldsOfAnInstructionWord := by
  intro op
  have hhigh := highByte_toNat_eq_nibbles op
  have hlow := lowByte_toNat_eq_nibbles op
  refine ⟨?word, ?kk, ?nnn, hhigh, hlow⟩
  case word => rw [toNat_eq_highByte_lowByte, hhigh, hlow]; omega
  case kk => rw [opKk_eq_lowByte, hlow]
  case nnn => rw [opNnn_toNat_eq_opX_lowByte, hlow]; omega

end Sys2Proof
end

section
/-! PROOFS. What fetch reads and where it faults (40_cycle.md R102, R103). -/

namespace Sys2Proof.Machine

/-- Settles O7: the word fetched is its two bytes, high byte first. -/
theorem fetchIsBigEndianAtAnyPc : Obligations.FetchIsBigEndianAtAnyPc := by
  intro s hpc
  exact ⟨_, fetch_ok (by omega), wordOfBytes_toNat _ _⟩

/-- Settles O9: `step` and `cycleWith` are one cycle over two execute stages, and the fault is taken before either
is reached. -/
theorem fetchPastTheEndFaults : Obligations.FetchPastTheEndFaults := by
  intro s rand hfault hpc
  exact ⟨runCycle_fetchFault hfault hpc, runCycle_fetchFault hfault hpc⟩

end Sys2Proof.Machine
end

section
/-! PROOFS. A word is the encoding of what it decodes to (30_encoding.md R82, R84, R85), format by format and then
family by family. -/

namespace Sys2Proof

/-! ### A word packed again from its own fields -/

section
variable {op : Word} {n1 : Nat} (h : (opN1 op).val = n1)
include h

theorem packNnn_of_fields : packNnn n1 (opNnn op) = op := by
  apply BitVec.eq_of_toNat_eq
  rw [packNnn_toNat (h ▸ (opN1 op).isLt), ← h, opN1_val, opNnn_toNat]; omega

/-- The low byte is the operand (format XKK) or the function (format X). -/
theorem packXkk_of_fields {kk : Byte} (hkk : (opKk op).toNat = kk.toNat) : packXkk n1 (opX op) kk = op := by
  apply BitVec.eq_of_toNat_eq
  rw [packXkk_toNat (h ▸ (opN1 op).isLt), ← h, ← hkk, opN1_val, opX_val, opKk_toNat]; omega

/-- The last nibble is the row count (format XYN) or the function (format XY). -/
theorem packXyn_of_fields {n : Fin 16} (hn : (opN op).val = n.val) : packXyn n1 (opX op) (opY op) n = op := by
  apply BitVec.eq_of_toNat_eq
  rw [packXyn_toNat (h ▸ (opN1 op).isLt), ← h, ← hn, opN1_val, opX_val, opY_val, opN_val]; omega

end

/-! ### The families -/

section
variable {op : Word}

theorem encode_decodeFamily0 : encode (decodeFamily0 op) = op := by
  unfold decodeFamily0
  split
  · next hcls => exact hcls.symm
  · split
    · next hret => exact hret.symm
    · rfl

theorem encode_decodeFamily8 (h : (opN1 op).val = 0x8) : encode (decodeFamily8 op) = op := by
  unfold decodeFamily8
  split
  case h_10 => rfl
  all_goals exact packXyn_of_fields h ‹_›

theorem encode_decodeFamilyE (h : (opN1 op).val = 0xE) : encode (decodeFamilyE op) = op := by
  unfold decodeFamilyE
  split
  case h_3 => rfl
  all_goals exact packXkk_of_fields h ‹_›

theorem encode_decodeFamilyF (h : (opN1 op).val = 0xF) : encode (decodeFamilyF op) = op := by
  unfold decodeFamilyF
  split
  case h_10 => rfl
  all_goals exact packXkk_of_fields h ‹_›

end

/-- The case `h_k` is the family whose first nibble is `k - 1`. -/
@[simp] theorem encode_decode (op : Word) : encode (decode op) = op := by
  unfold decode
  split
  case h_1 => exact encode_decodeFamily0
  case h_6 h =>
    split
    · exact packXyn_of_fields h ‹_›
    · rfl
  case h_9 h => exact encode_decodeFamily8 h
  case h_10 h =>
    split
    · exact packXyn_of_fields h ‹_›
    · rfl
  case h_14 h => exact packXyn_of_fields h rfl
  case h_15 h => exact encode_decodeFamilyE h
  case h_16 =>
    have hn1 : (opN1 op).val = 0xF := by have := (opN1 op).isLt; simp only [imp_false] at *; omega
    exact encode_decodeFamilyF hn1
  case h_2 h | h_3 h | h_11 h | h_12 h => exact packNnn_of_fields h
  case h_4 h | h_5 h | h_7 h | h_8 h | h_13 h => exact packXkk_of_fields h rfl

end Sys2Proof
end

section
/-! PROOFS. The words that no row of the opcode table selects (30_encoding.md R88) and what UNMATCHED does
(40_cycle.md R110). -/

namespace Sys2Proof.Laws.CarriesItsRow

/-- The encoding of every instruction carries its row: the lemmas of this namespace, put together. -/
theorem statement_all : ∀ i : Instr, Statement i
  | .cls => cls
  | .ret => ret
  | .jp nnn => jp nnn
  | .call nnn => call nnn
  | .seKk x kk => seKk x kk
  | .sneKk x kk => sneKk x kk
  | .seR x y => seR x y
  | .ldKk x kk => ldKk x kk
  | .addKk x kk => addKk x kk
  | .ldR x y => ldR x y
  | .or x y => or x y
  | .and x y => and x y
  | .xor x y => xor x y
  | .addR x y => addR x y
  | .sub x y => sub x y
  | .shr x y => shr x y
  | .subn x y => subn x y
  | .shl x y => shl x y
  | .sneR x y => sneR x y
  | .ldI nnn => ldI nnn
  | .jpV0 nnn => jpV0 nnn
  | .rnd x kk => rnd x kk
  | .drw x y n => drw x y n
  | .skp x => skp x
  | .sknp x => sknp x
  | .ldVxDt x => ldVxDt x
  | .ldVxK x => ldVxK x
  | .ldDtVx x => ldDtVx x
  | .ldStVx x => ldStVx x
  | .addIVx x => addIVx x
  | .ldFVx x => ldFVx x
  | .ldBVx x => ldBVx x
  | .ldMemVx x => ldMemVx x
  | .ldVxMem x => ldVxMem x
  | .unmatched op => unmatched op

end Sys2Proof.Laws.CarriesItsRow

namespace Sys2Proof

theorem eq_unmatched_of_mnemonicOf {i : Instr} (h : mnemonicOf i = "UNMATCHED") : ∃ op, i = .unmatched op := by
  cases i with
  | unmatched op => exact ⟨op, rfl⟩
  | _ => exact absurd h (by simp [mnemonicOf])

/-- The encoding of an instruction selects some row, unless the instruction is UNMATCHED. -/
theorem eq_unmatched_of_no_row_selects {i : Instr} (h : ∀ r ∈ opcodeRows, r.selects (encode i) = false) :
    i = .unmatched (encode i) := by
  have hrow := Laws.CarriesItsRow.statement_all i
  unfold Laws.CarriesItsRow.Statement at hrow
  split at hrow
  · next r hfind => exact absurd hrow (by simp [h r (List.mem_of_find?_eq_some hfind)])
  · obtain ⟨op, rfl⟩ := eq_unmatched_of_mnemonicOf hrow
    rfl

theorem decode_of_no_row_selects {op : Word} (h : ∀ r ∈ opcodeRows, r.selects op = false) :
    decode op = .unmatched op := by
  have hop := encode_decode op
  rw [← hop] at h
  simpa only [hop] using eq_unmatched_of_no_row_selects h

end Sys2Proof

namespace Sys2Proof.Machine

/-- A jump, a skip or an advance touches `pc` alone. -/
theorem onlyChanges_setPc (s : State) (v : Word) : OnlyChanges [.pc] s (s.setPc v) := by
  intro p hp
  cases p with
  | pc => exact absurd (List.mem_singleton.mpr rfl) hp
  | V | mem => intro _; rfl
  | _ => rfl

theorem advances_advance (s : State) : Advances s s.advance := by
  simp [Advances, BitVec.toNat_add]

theorem exec_unmatched (op : Word) (s : State) : exec (.unmatched op) s = .next s.advance := rfl

/-- Settles O46: a word that selects no row can only decode to UNMATCHED, whose whole effect is the advance. -/
theorem unmatchedWordsOnlyAdvance : Obligations.UnmatchedWordsOnlyAdvance := by
  intro op hrows
  refine ⟨decode_of_no_row_selects hrows, fun s => ⟨s.advance, exec_unmatched op s, advances_advance s, ?frame⟩⟩
  case frame => exact onlyChanges_setPc s _

end Sys2Proof.Machine
end

section
/-! PROOFS. From a mask and match value of R86 to the nibbles the decoder dispatches on (30_encoding.md R84). -/

namespace Sys2Proof.Machine

section
variable {pattern : Word} {build : Word → Instr}

/-- The mask F000 fixes the family and leaves every other field free. -/
theorem encodedBy_maskF000 (h : ∀ op, (opN1 op).val = pattern.toNat / 4096 → decode op = build op) :
    EncodedBy 0xF000 pattern build := by
  intro op hop
  have hpattern := (congrArg BitVec.toNat hop.symm).trans (and_maskF000_toNat op)
  refine h op ?_
  rw [opN1_val, hpattern]; omega

/-- The mask F00F fixes the family and the last nibble. -/
theorem encodedBy_maskF00F (h : ∀ op, (opN1 op).val = pattern.toNat / 4096 → (opN op).val = pattern.toNat % 16 →
    decode op = build op) : EncodedBy 0xF00F pattern build := by
  intro op hop
  have hpattern := (congrArg BitVec.toNat hop.symm).trans (and_maskF00F_toNat op)
  refine h op ?family ?last
  case family => rw [opN1_val, hpattern]; omega
  case last => rw [opN_val, hpattern]; omega

end

end Sys2Proof.Machine
end

section
/-! PROOFS. Jumps and the skips on registers and immediates (41_control_flow.md R122, R125 to R128): how their
families decode, what they do to `pc`, and the statements about them. -/

namespace Sys2Proof

/-! ### The families of the jump and the skips -/

section
variable {op : Word}

theorem decode_family1 (h : (opN1 op).val = 0x1) : decode op = .jp (opNnn op) := by simp only [decode, h]

theorem decode_family3 (h : (opN1 op).val = 0x3) : decode op = .seKk (opX op) (opKk op) := by simp only [decode, h]

theorem decode_family4 (h : (opN1 op).val = 0x4) : decode op = .sneKk (opX op) (opKk op) := by simp only [decode, h]

theorem decode_family5 (h : (opN1 op).val = 0x5) :
    decode op = if (opN op).val = 0 then .seR (opX op) (opY op) else .unmatched op := by simp only [decode, h]

theorem decode_family9 (h : (opN1 op).val = 0x9) :
    decode op = if (opN op).val = 0 then .sneR (opX op) (opY op) else .unmatched op := by simp only [decode, h]

end

end Sys2Proof

namespace Sys2Proof.Machine

/-! ### What a jump and a skip do to `pc` -/

section
variable {i : Instr}

theorem jumpsTo_of_exec {target : State → Word} (hexec : ∀ s, exec i s = .next (s.setPc (target s))) :
    JumpsTo i fun s => (target s).toNat :=
  fun s => ⟨_, hexec s, rfl, onlyChanges_setPc s _⟩

theorem State.skipIf_pc_toNat (s : State) (c : Bool) :
    (s.skipIf c).pc.toNat = (s.pc.toNat + if c then 4 else 2) % 65536 := by
  cases c <;> simp [BitVec.toNat_add]

theorem onlyChanges_skipIf (s : State) (c : Bool) : OnlyChanges [.pc] s (s.skipIf c) := onlyChanges_setPc s _

theorem skipsWhen_of_exec {test : State → Bool} {cond : State → Prop}
    (hexec : ∀ s, exec i s = .next (s.skipIf (test s))) (htest : ∀ s, test s = true ↔ cond s) :
    SkipsWhen i cond := by
  intro s
  refine ⟨s.skipIf (test s), hexec s, ?skips, ?advances, onlyChanges_skipIf s _⟩
  case skips => intro h; rw [State.skipIf_pc_toNat, if_pos ((htest s).mpr h)]
  case advances => intro h; rw [Advances, State.skipIf_pc_toNat, if_neg (mt (htest s).mp h)]

end

/-! ### JP (R122) -/

theorem exec_jp (nnn : BitVec 12) (s : State) : exec (.jp nnn) s = .next (s.setPc (addressOf nnn)) := rfl

/-- Settles O18: the address is zero-extended, so `pc` is `nnn` itself. -/
theorem jumpSetsPcToItsAddress : Obligations.JumpSetsPcToItsAddress := by
  refine ⟨encodedBy_maskF000 fun _ h => decode_family1 h, fun nnn => ?jump⟩
  case jump => simpa only [addressOf_toNat] using jumpsTo_of_exec (exec_jp nnn)

/-! ### The skips (R125 to R128) -/

section
variable (x y : RegIx) (kk : Byte) (s : State)

theorem exec_seKk : exec (.seKk x kk) s = .next (s.skipIf (s.reg x == kk)) := rfl
theorem exec_sneKk : exec (.sneKk x kk) s = .next (s.skipIf (s.reg x != kk)) := rfl
theorem exec_seR : exec (.seR x y) s = .next (s.skipIf (s.reg x == s.reg y)) := rfl
theorem exec_sneR : exec (.sneR x y) s = .next (s.skipIf (s.reg x != s.reg y)) := rfl

end

/-- Settles O23: each skip is `State.skipIf` of a test of two bytes, which agrees with the test of their values. -/
theorem registerSkipsTestTheirCondition : Obligations.RegisterSkipsTestTheirCondition := by
  refine ⟨encodedBy_maskF000 fun _ h => decode_family3 h, encodedBy_maskF000 fun _ h => decode_family4 h,
    encodedBy_maskF00F fun _ h hn => (decode_family5 h).trans (if_pos hn),
    encodedBy_maskF00F fun _ h hn => (decode_family9 h).trans (if_pos hn), ?unmatched,
    fun x y kk => ⟨?seKk, ?sneKk, ?seR, ?sneR⟩⟩
  case unmatched =>
    rintro op (h | h) hn
    · exact (decode_family5 h).trans (if_neg hn)
    · exact (decode_family9 h).trans (if_neg hn)
  case seKk => exact skipsWhen_of_exec (exec_seKk x kk) fun _ => beq_iff_eq.trans BitVec.toNat_inj.symm
  case sneKk => exact skipsWhen_of_exec (exec_sneKk x kk) fun _ => bne_iff_ne.trans BitVec.toNat_ne_iff_ne.symm
  case seR => exact skipsWhen_of_exec (exec_seR x y) fun _ => beq_iff_eq.trans BitVec.toNat_inj.symm
  case sneR => exact skipsWhen_of_exec (exec_sneR x y) fun _ => bne_iff_ne.trans BitVec.toNat_ne_iff_ne.symm

end Sys2Proof.Machine
end

section
/-! PROOFS. Register loads, arithmetic, logic and shifts (42_load_alu.md R141 to R151): how their families decode,
the two shapes of a register write, and the statements about them. -/

namespace Sys2Proof

/-! ### The families of the loads and the arithmetic -/

section
variable {op : Word}

theorem decode_family6 (h : (opN1 op).val = 0x6) : decode op = .ldKk (opX op) (opKk op) := by simp only [decode, h]

theorem decode_family7 (h : (opN1 op).val = 0x7) : decode op = .addKk (opX op) (opKk op) := by simp only [decode, h]

theorem decode_family8 (h : (opN1 op).val = 0x8) : decode op = decodeFamily8 op := by simp only [decode, h]

/-! ### The rows of family 8, by their last nibble (R85) -/

theorem decodeFamily8_ldR (h : (opN op).val = 0x0) : decodeFamily8 op = .ldR (opX op) (opY op) := by
  simp only [decodeFamily8, h]

theorem decodeFamily8_or (h : (opN op).val = 0x1) : decodeFamily8 op = .or (opX op) (opY op) := by
  simp only [decodeFamily8, h]

theorem decodeFamily8_and (h : (opN op).val = 0x2) : decodeFamily8 op = .and (opX op) (opY op) := by
  simp only [decodeFamily8, h]

theorem decodeFamily8_xor (h : (opN op).val = 0x3) : decodeFamily8 op = .xor (opX op) (opY op) := by
  simp only [decodeFamily8, h]

theorem decodeFamily8_addR (h : (opN op).val = 0x4) : decodeFamily8 op = .addR (opX op) (opY op) := by
  simp only [decodeFamily8, h]

theorem decodeFamily8_sub (h : (opN op).val = 0x5) : decodeFamily8 op = .sub (opX op) (opY op) := by
  simp only [decodeFamily8, h]

theorem decodeFamily8_shr (h : (opN op).val = 0x6) : decodeFamily8 op = .shr (opX op) (opY op) := by
  simp only [decodeFamily8, h]

theorem decodeFamily8_subn (h : (opN op).val = 0x7) : decodeFamily8 op = .subn (opX op) (opY op) := by
  simp only [decodeFamily8, h]

theorem decodeFamily8_shl (h : (opN op).val = 0xE) : decodeFamily8 op = .shl (opX op) (opY op) := by
  simp only [decodeFamily8, h]

end

end Sys2Proof

namespace Sys2Proof.Machine

theorem encodedBy_family8 {pattern : Word} {build : Word → Instr} (hfamily : pattern.toNat / 4096 = 0x8)
    (h : ∀ op, (opN op).val = pattern.toNat % 16 → decodeFamily8 op = build op) : EncodedBy 0xF00F pattern build :=
  encodedBy_maskF00F fun op hn1 hn => (decode_family8 (hn1.trans hfamily)).trans (h op hn)

/-! ### Writing one register, and writing a result and a flag -/

theorem onlyChanges_setV_setPc (s : State) (v : Vector Byte 16) (pc : Word) :
    OnlyChanges [.V, .pc] s ((s.setV v).setPc pc) := by
  intro p hp
  cases p with
  | V | pc => simp at hp
  | mem => intro _; rfl
  | _ => rfl

section
variable {i : Instr} {x : RegIx}

theorem writesOneRegister_of_exec {result : State → Byte} {value : State → Nat}
    (hexec : ∀ s, exec i s = .next (s.setReg x (result s)).advance)
    (hvalue : ∀ s, (result s).toNat = value s) : WritesOneRegister i x value := by
  intro s
  refine ⟨(s.setReg x (result s)).advance, hexec s, ?result, ?others, advances_advance _,
    onlyChanges_setV_setPc s _ _⟩
  case result => rw [State.advance_reg, State.setReg_reg_self, hvalue]
  case others => exact fun _ hr => State.setReg_reg_of_ne s x _ hr

theorem writesResultAndFlag_of_exec {result : State → Byte} {flag : State → Bool} {value flagValue : State → Nat}
    (hexec : ∀ s, exec i s = .next (writeResultThenFlag s x (result s) (flag s)))
    (hvalue : ∀ s, (result s).toNat = value s) (hflag : ∀ s, (flagByte (flag s)).toNat = flagValue s) :
    WritesResultAndFlag i x value flagValue := by
  intro s
  refine ⟨writeResultThenFlag s x (result s) (flag s), hexec s, ?flag, ?result, ?others, advances_advance _,
    onlyChanges_setV_setPc s _ _⟩
  case flag => rw [writeResultThenFlag_flag, hflag]
  case result => intro hx; rw [writeResultThenFlag_result s x _ _ hx, hvalue]
  case others => exact fun _ hx hf => writeResultThenFlag_other s x _ _ hx hf

end

/-! ### What each instruction writes -/

section
variable (x y : RegIx) (kk : Byte) (s : State)

theorem exec_ldKk : exec (.ldKk x kk) s = .next (s.setReg x kk).advance := rfl
theorem exec_addKk : exec (.addKk x kk) s = .next (s.setReg x (s.reg x + kk)).advance := rfl
theorem exec_ldR : exec (.ldR x y) s = .next (s.setReg x (s.reg y)).advance := rfl
theorem exec_or : exec (.or x y) s = .next (s.setReg x (s.reg x ||| s.reg y)).advance := rfl
theorem exec_and : exec (.and x y) s = .next (s.setReg x (s.reg x &&& s.reg y)).advance := rfl
theorem exec_xor : exec (.xor x y) s = .next (s.setReg x (s.reg x ^^^ s.reg y)).advance := rfl

theorem exec_addR : exec (.addR x y) s =
    .next (writeResultThenFlag s x (s.reg x + s.reg y) (carry (s.reg x) (s.reg y))) := rfl

theorem exec_sub : exec (.sub x y) s =
    .next (writeResultThenFlag s x (s.reg x - s.reg y) (notBorrow (s.reg x) (s.reg y))) := rfl

theorem exec_subn : exec (.subn x y) s =
    .next (writeResultThenFlag s x (s.reg y - s.reg x) (notBorrow (s.reg y) (s.reg x))) := rfl

theorem exec_shr : exec (.shr x y) s =
    .next (writeResultThenFlag s x (s.reg x >>> 1) (shiftedOutLow (s.reg x))) := rfl

theorem exec_shl : exec (.shl x y) s =
    .next (writeResultThenFlag s x (s.reg x <<< 1) (shiftedOutHigh (s.reg x))) := rfl

end

/-! ### Bytes and flags as numbers -/

section
variable (a b : Byte)

theorem carry_toNat : (flagByte (carry a b)).toNat = if 256 ≤ a.toNat + b.toNat then 1 else 0 := by simp

/-- The flag of a subtraction is 0 on a borrow, so 1 when the operands are equal (R148, R150). -/
theorem notBorrow_toNat : (flagByte (notBorrow a b)).toNat = if a.toNat < b.toNat then 0 else 1 := by
  by_cases h : a.toNat < b.toNat <;> simp [h]

/-- The wrap of an 8-bit difference as R148 writes it: 256 is added on a borrow. -/
theorem sub_toNat_byte :
    (a - b).toNat = if a.toNat < b.toNat then a.toNat + 256 - b.toNat else a.toNat - b.toNat := by
  have ha := a.isLt
  have hb := b.isLt
  rw [BitVec.toNat_sub]
  split <;> omega

theorem shiftRight_one_toNat : (a >>> 1).toNat = a.toNat / 2 := by
  rw [BitVec.toNat_ushiftRight, Nat.shiftRight_eq_div_pow, Nat.pow_one]

theorem shiftLeft_one_toNat : (a <<< 1).toNat = 2 * a.toNat % 256 := by
  rw [BitVec.toNat_shiftLeft, Nat.shiftLeft_eq, Nat.pow_one, Nat.mul_comm]

end

/-! ### The loads and ADD_KK (R141, R142, R143) -/

/-- Settles O24: both are writes of one register, with a byte that is there already. -/
theorem loadsWriteTheirRegister : Obligations.LoadsWriteTheirRegister := by
  refine ⟨encodedBy_maskF000 fun _ h => decode_family6 h, encodedBy_family8 rfl fun _ h => decodeFamily8_ldR h,
    fun x y kk => ⟨?ldKk, ?ldR⟩⟩
  case ldKk => exact writesOneRegister_of_exec (exec_ldKk x kk) fun _ => rfl
  case ldR => exact writesOneRegister_of_exec (exec_ldR x y) fun _ => rfl

/-- Settles O25: ADD_KK is a write of one register, so there is no flag to compute. -/
theorem addImmediateWrapsWithoutFlag : Obligations.AddImmediateWrapsWithoutFlag := by
  refine ⟨encodedBy_maskF000 fun _ h => decode_family7 h, fun x kk => ?addKk⟩
  case addKk => exact writesOneRegister_of_exec (exec_addKk x kk) fun s => BitVec.toNat_add (s.reg x) kk

/-! ### Bitwise logic (R144, R145, R146) -/

/-- Settles O26: each is a write of one register, and on bytes the bitwise operation is that of their values. -/
theorem logicIsBitwiseWithoutFlag : Obligations.LogicIsBitwiseWithoutFlag := by
  refine ⟨encodedBy_family8 rfl fun _ h => decodeFamily8_or h, encodedBy_family8 rfl fun _ h => decodeFamily8_and h,
    encodedBy_family8 rfl fun _ h => decodeFamily8_xor h, fun x y => ⟨?or, ?and, ?xor⟩⟩
  case or => exact writesOneRegister_of_exec (exec_or x y) fun s => BitVec.toNat_or (s.reg x) (s.reg y)
  case and => exact writesOneRegister_of_exec (exec_and x y) fun s => BitVec.toNat_and (s.reg x) (s.reg y)
  case xor => exact writesOneRegister_of_exec (exec_xor x y) fun s => BitVec.toNat_xor (s.reg x) (s.reg y)

/-! ### Sums, differences and shifts with a flag (R147 to R151) -/

/-- Settles O27: the sum of the bytes wraps, and the carry tests the unbounded sum. -/
theorem addWritesSumAndCarry : Obligations.AddWritesSumAndCarry := by
  refine ⟨encodedBy_family8 rfl fun _ h => decodeFamily8_addR h, fun x y => ?addR⟩
  case addR =>
    exact writesResultAndFlag_of_exec (exec_addR x y) (fun s => BitVec.toNat_add (s.reg x) (s.reg y))
      fun s => carry_toNat (s.reg x) (s.reg y)

/-- Settles O28: SUBN is SUB with the operands of difference and flag exchanged. -/
theorem subtractionsWriteDifferenceAndNotBorrow : Obligations.SubtractionsWriteDifferenceAndNotBorrow := by
  refine ⟨encodedBy_family8 rfl fun _ h => decodeFamily8_sub h,
    encodedBy_family8 rfl fun _ h => decodeFamily8_subn h, fun x y => ⟨?sub, ?subn⟩⟩
  case sub =>
    exact writesResultAndFlag_of_exec (exec_sub x y) (fun s => sub_toNat_byte (s.reg x) (s.reg y))
      fun s => notBorrow_toNat (s.reg x) (s.reg y)
  case subn =>
    exact writesResultAndFlag_of_exec (exec_subn x y) (fun s => sub_toNat_byte (s.reg y) (s.reg x))
      fun s => notBorrow_toNat (s.reg y) (s.reg x)

/-- Settles O29: result and flag are functions of the old `V[x]` alone. -/
theorem shiftsWriteResultAndShiftedOutBit : Obligations.ShiftsWriteResultAndShiftedOutBit := by
  refine ⟨encodedBy_family8 rfl fun _ h => decodeFamily8_shr h,
    encodedBy_family8 rfl fun _ h => decodeFamily8_shl h, fun x y => ⟨?shr, ?shl⟩⟩
  case shr =>
    exact writesResultAndFlag_of_exec (exec_shr x y) (fun s => shiftRight_one_toNat (s.reg x))
      fun s => shiftedOutLow_toNat (s.reg x)
  case shl =>
    exact writesResultAndFlag_of_exec (exec_shl x y) (fun s => shiftLeft_one_toNat (s.reg x))
      fun s => shiftedOutHigh_toNat (s.reg x)

end Sys2Proof.Machine
end

section
/-! PROOFS. The instructions that set `I` (43_index_memory.md R171 to R173): how they decode, the shape of a write
of `I`, and the statement about them. -/

namespace Sys2Proof

/-! ### Family A, and family F by its low byte (R85) -/

section
variable {op : Word}

theorem decode_familyA (h : (opN1 op).val = 0xA) : decode op = .ldI (opNnn op) := by simp only [decode, h]

theorem decode_familyF (h : (opN1 op).val = 0xF) : decode op = decodeFamilyF op := by simp only [decode, h]

theorem decodeFamilyF_addIVx (h : (opKk op).toNat = 0x1E) : decodeFamilyF op = .addIVx (opX op) := by
  simp only [decodeFamilyF, h]

theorem decodeFamilyF_ldFVx (h : (opKk op).toNat = 0x29) : decodeFamilyF op = .ldFVx (opX op) := by
  simp only [decodeFamilyF, h]

end

end Sys2Proof

namespace Sys2Proof.Machine

section
variable {pattern : Word} {build : Word → Instr}

/-- The mask F0FF fixes the family and the low byte. -/
theorem encodedBy_maskF0FF (h : ∀ op, (opN1 op).val = pattern.toNat / 4096 →
    (opKk op).toNat = pattern.toNat % 256 → decode op = build op) : EncodedBy 0xF0FF pattern build := by
  intro op hop
  have hpattern := (congrArg BitVec.toNat hop.symm).trans (and_maskF0FF_toNat op)
  refine h op ?family ?low
  case family => rw [opN1_val, hpattern]; omega
  case low => rw [opKk_toNat, hpattern]; omega

theorem encodedBy_familyF (hfamily : pattern.toNat / 4096 = 0xF)
    (h : ∀ op, (opKk op).toNat = pattern.toNat % 256 → decodeFamilyF op = build op) :
    EncodedBy 0xF0FF pattern build :=
  encodedBy_maskF0FF fun op hn1 hkk => (decode_familyF (hn1.trans hfamily)).trans (h op hkk)

end

/-! ### Writing `I` -/

theorem onlyChanges_setI_setPc (s : State) (v pc : Word) : OnlyChanges [.I, .pc] s ((s.setI v).setPc pc) := by
  intro p hp
  cases p with
  | I | pc => simp at hp
  | V | mem => intro _; rfl
  | _ => rfl

theorem setsIndex_of_exec {i : Instr} {result : State → Word} {value : State → Nat}
    (hexec : ∀ s, exec i s = .next (s.setI (result s)).advance) (hvalue : ∀ s, (result s).toNat = value s) :
    SetsIndex i value :=
  fun s => ⟨(s.setI (result s)).advance, hexec s, hvalue s, advances_advance _, onlyChanges_setI_setPc s _ _⟩

/-! ### What each instruction writes -/

section
variable (nnn : BitVec 12) (x : RegIx) (s : State)

theorem exec_ldI : exec (.ldI nnn) s = .next (s.setI (addressOf nnn)).advance := rfl
theorem exec_addIVx : exec (.addIVx x) s = .next (s.setI (s.I + (s.reg x).setWidth 16)).advance := rfl
theorem exec_ldFVx : exec (.ldFVx x) s = .next (s.setI (glyphAddress (s.reg x))).advance := rfl

end

/-- A byte is zero-extended before it is added to an address; only the sum wraps (R172). -/
theorem add_setWidth_toNat (a : Word) (b : Byte) : (a + b.setWidth 16).toNat = (a.toNat + b.toNat) % 65536 := by
  rw [BitVec.toNat_add, BitVec.toNat_setWidth_of_le (by decide)]

/-! ### LD_I, ADD_I_VX and LD_F_VX (R171, R172, R173) -/

/-- Settles O31: each is a write of `I` and an advance, so no flag and no memory is touched. -/
theorem indexInstructionsSetI : Obligations.IndexInstructionsSetI := by
  refine ⟨encodedBy_maskF000 fun _ h => decode_familyA h, encodedBy_familyF rfl fun _ h => decodeFamilyF_addIVx h,
    encodedBy_familyF rfl fun _ h => decodeFamilyF_ldFVx h, fun nnn x => ⟨?ldI, ?addIVx, ?ldFVx⟩⟩
  case ldI => exact setsIndex_of_exec (exec_ldI nnn) fun _ => addressOf_toNat nnn
  case addIVx => exact setsIndex_of_exec (exec_addIVx x) fun s => add_setWidth_toNat s.I (s.reg x)
  case ldFVx => exact setsIndex_of_exec (exec_ldFVx x) fun s => glyphAddress_toNat (s.reg x)

end Sys2Proof.Machine
end

section
/-! PROOFS. CLS (44_display.md R191): how it decodes, the frame of a write of the framebuffer, and the statement
about it. -/

namespace Sys2Proof

theorem decode_cls : decode 0x00E0 = .cls := rfl

end Sys2Proof

namespace Sys2Proof.Machine

/-- The mask FFFF fixes the whole word, so the row is one word and carries no operand. -/
theorem encodedBy_maskFFFF {pattern : Word} {i : Instr} (h : decode pattern = i) :
    EncodedBy 0xFFFF pattern fun _ => i := by
  intro op hop
  have hpattern : op = pattern := BitVec.and_allOnes.symm.trans hop
  rw [hpattern, h]

theorem onlyChanges_setFb_setPc (s : State) (fb : Framebuffer) (pc : Word) :
    OnlyChanges [.fb, .pc] s ((s.setFb fb).setPc pc) := by
  intro p hp
  cases p with
  | fb | pc => simp at hp
  | V | mem => intro _; rfl
  | _ => rfl

theorem exec_cls (s : State) : exec .cls s = .next (s.setFb Framebuffer.clear).advance := rfl

/-- Settles O38: CLS is a write of the cleared framebuffer and an advance, so no register is touched. -/
theorem clearTurnsEveryCellOff : Obligations.ClearTurnsEveryCellOff := by
  refine ⟨encodedBy_maskFFFF decode_cls, fun s => ⟨(s.setFb Framebuffer.clear).advance, exec_cls s, ?cells,
    advances_advance _, onlyChanges_setFb_setPc s _ _⟩⟩
  case cells => exact Framebuffer.cell_clear

end Sys2Proof.Machine
end

section
/-! PROOFS. The key wait and the timer instructions (45_keypad_timers.md R203 to R206): how they decode, what they
execute, the tick that follows in their cycle (40_cycle.md R108, R109), and the statements about them. -/

namespace Sys2Proof

/-! ### The rows of family F on keys and timers, by their low byte (R85) -/

section
variable {op : Word}

theorem decodeFamilyF_ldVxDt (h : (opKk op).toNat = 0x07) : decodeFamilyF op = .ldVxDt (opX op) := by
  simp only [decodeFamilyF, h]

theorem decodeFamilyF_ldVxK (h : (opKk op).toNat = 0x0A) : decodeFamilyF op = .ldVxK (opX op) := by
  simp only [decodeFamilyF, h]

theorem decodeFamilyF_ldDtVx (h : (opKk op).toNat = 0x15) : decodeFamilyF op = .ldDtVx (opX op) := by
  simp only [decodeFamilyF, h]

theorem decodeFamilyF_ldStVx (h : (opKk op).toNat = 0x18) : decodeFamilyF op = .ldStVx (opX op) := by
  simp only [decodeFamilyF, h]

end

end Sys2Proof

namespace Sys2Proof.Machine

/-! ### The end of a cycle that did not fault -/

/-- The step that runs an instruction that takes no fault is what it executes, then the tick (R100, R109). -/
theorem step_of_runs {i : Instr} {s u : State} (hruns : Runs s i) (hexec : exec i s = .next u)
    (hfault : u.fault = s.fault) : step s = .next (nextDraw (tick u)) := by
  obtain ⟨hs, hpc, rfl⟩ := hruns
  rw [step, runCycle_runs hs (fetch_ok hpc), hexec, ← endOfCycle_ok u (hfault.trans hs)]
  rfl

section
variable (s : State)

theorem nextDraw_tick_DT_toNat : (nextDraw (tick s)).DT.toNat = s.DT.toNat - 1 := tickTimer_toNat s.DT

theorem nextDraw_tick_ST_toNat : (nextDraw (tick s)).ST.toNat = s.ST.toNat - 1 := tickTimer_toNat s.ST

@[simp] theorem nextDraw_tick_reg (r : RegIx) : (nextDraw (tick s)).reg r = s.reg r := rfl

theorem onlyChanges_nextDraw_tick : OnlyChanges [.DT, .ST, .draws] s (nextDraw (tick s)) := by
  intro p hp
  cases p with
  | DT | ST | draws => simp at hp
  | V | mem => intro _; rfl
  | _ => rfl

end

/-! ### Writing a timer -/

section
variable (s : State) (v : Byte) (pc : Word)

theorem onlyChanges_setDT_setPc : OnlyChanges [.DT, .pc] s ((s.setDT v).setPc pc) := by
  intro p hp
  cases p with
  | DT | pc => simp at hp
  | V | mem => intro _; rfl
  | _ => rfl

theorem onlyChanges_setST_setPc : OnlyChanges [.ST, .pc] s ((s.setST v).setPc pc) := by
  intro p hp
  cases p with
  | ST | pc => simp at hp
  | V | mem => intro _; rfl
  | _ => rfl

end

/-! ### What each instruction executes -/

section
variable (x : RegIx) (s : State)

theorem exec_ldVxDt : exec (.ldVxDt x) s = .next (s.setReg x s.DT).advance := rfl
theorem exec_ldDtVx : exec (.ldDtVx x) s = .next (s.setDT (s.reg x)).advance := rfl
theorem exec_ldStVx : exec (.ldStVx x) s = .next (s.setST (s.reg x)).advance := rfl

theorem exec_ldVxK : exec (.ldVxK x) s = execLdVxK x s := rfl

variable {s}

/-- With a key pressed LD_VX_K writes the least pressed index (R203). -/
theorem exec_ldVxK_pressed {k : RegIx} (hk : s.key[k] = true) (hleast : ∀ j : RegIx, j < k → s.key[j] = false) :
    exec (.ldVxK x) s = .next (s.setReg x (keyByte k)).advance := by
  rw [exec_ldVxK, execLdVxK, lowestKey_some.mpr ⟨hk, hleast⟩]

/-- With no key pressed LD_VX_K ends in the same state (R203). -/
theorem exec_ldVxK_waits (hnone : ∀ k : RegIx, s.key[k] = false) : exec (.ldVxK x) s = .next s := by
  rw [exec_ldVxK, execLdVxK, lowestKey_none.mpr hnone]

end

/-! ### LD_VX_K (R203) -/

/-- Settles O42: `lowestKey` is the least pressed key, or nothing; the waiting cycle is its tick alone. -/
theorem keyWaitTakesTheLeastKeyOrWaits : Obligations.KeyWaitTakesTheLeastKeyOrWaits := by
  refine ⟨encodedBy_familyF rfl fun _ h => decodeFamilyF_ldVxK h, fun x s => ⟨?pressed, ?waits⟩⟩
  case pressed =>
    intro k hk hleast
    refine ⟨(s.setReg x (keyByte k)).advance, exec_ldVxK_pressed x hk hleast, ?index, ?others, advances_advance _,
      onlyChanges_setV_setPc s _ _⟩
    case index => rw [State.advance_reg, State.setReg_reg_self, keyByte_toNat]
    case others => exact fun _ hr => State.setReg_reg_of_ne s x _ hr
  case waits =>
    intro hnone
    have hexec := exec_ldVxK_waits x hnone
    exact ⟨hexec, fun hruns => ⟨nextDraw (tick s), step_of_runs hruns hexec rfl, nextDraw_tick_DT_toNat s,
      nextDraw_tick_ST_toNat s, onlyChanges_nextDraw_tick s⟩⟩

/-! ### LD_VX_DT, LD_DT_VX and LD_ST_VX (R204, R205, R206) -/

/-- Settles O44: each is a write of one part and an advance, and the tick follows on the state so written. -/
theorem timerInstructionsMoveBeforeTheTick : Obligations.TimerInstructionsMoveBeforeTheTick := by
  refine ⟨encodedBy_familyF rfl fun _ h => decodeFamilyF_ldVxDt h,
    encodedBy_familyF rfl fun _ h => decodeFamilyF_ldDtVx h,
    encodedBy_familyF rfl fun _ h => decodeFamilyF_ldStVx h,
    fun x => ⟨?ldVxDt, fun s => ⟨?ldDtVx, ?ldStVx, ?stepLdVxDt, ?stepLdDtVx, ?stepLdStVx⟩⟩⟩
  case ldVxDt => exact writesOneRegister_of_exec (exec_ldVxDt x) fun _ => rfl
  case ldDtVx => exact ⟨_, exec_ldDtVx x s, rfl, advances_advance _, onlyChanges_setDT_setPc s _ _⟩
  case ldStVx => exact ⟨_, exec_ldStVx x s, rfl, advances_advance _, onlyChanges_setST_setPc s _ _⟩
  case stepLdVxDt =>
    intro hruns
    refine ⟨_, step_of_runs hruns (exec_ldVxDt x s) rfl, ?read, nextDraw_tick_DT_toNat _, nextDraw_tick_ST_toNat _⟩
    case read => rw [nextDraw_tick_reg, State.advance_reg, State.setReg_reg_self]
  case stepLdDtVx =>
    intro hruns
    exact ⟨_, step_of_runs hruns (exec_ldDtVx x s) rfl, nextDraw_tick_DT_toNat _, nextDraw_tick_ST_toNat _⟩
  case stepLdStVx =>
    intro hruns
    exact ⟨_, step_of_runs hruns (exec_ldStVx x s) rfl, nextDraw_tick_ST_toNat _, nextDraw_tick_DT_toNat _⟩

end Sys2Proof.Machine
end

section
/-! PROOFS. The key flags (46_host_operations.md R224, R225): what KEY_DOWN and KEY_UP write, that no instruction,
no cycle and no other operation but INIT writes a flag (10_state.md R30, R37), and the statement about it. -/

namespace Sys2Proof.Machine

/-! ### Writing one flag -/

section
variable (s : State)

theorem setKey_set_key (k j : RegIx) (b : Bool) :
    (s.setKey (s.key.set k b)).key[j] = if j = k then b else s.key[j] := by
  by_cases hj : j = k
  · subst hj; simp
  · have hne : (k : Nat) ≠ j := fun e => hj (Fin.ext e.symm)
    simp [hj, hne]

theorem onlyChanges_setKey (v : Vector Bool 16) : OnlyChanges [.key] s (s.setKey v) := by
  intro p hp
  cases p with
  | key => simp at hp
  | V | mem => intro _; rfl
  | _ => rfl

end

/-! ### No instruction writes a flag -/

theorem exec_skp (x : RegIx) (s : State) :
    exec (.skp x) s = withKeyIndex (s.reg x) s fun k => s.skipIf s.key[k] := rfl

theorem exec_sknp (x : RegIx) (s : State) :
    exec (.sknp x) s = withKeyIndex (s.reg x) s fun k => s.skipIf (!s.key[k]) := rfl

section
variable {s t : State}

theorem accessing_key {count : Nat} {done : State} (h : accessing count s done = .next t)
    (hdone : done.key = s.key) : t.key = s.key := by
  obtain ⟨-, rfl⟩ | ⟨-, -, rfl⟩ := accessing_cases h
  · exact hdone
  · rfl

theorem withKeyIndex_key {v : Byte} {use : RegIx → State} (h : withKeyIndex v s use = .next t)
    (huse : ∀ k, (use k).key = s.key) : t.key = s.key := by
  obtain ⟨_, rfl⟩ | ⟨-, rfl⟩ := withKeyIndex_cases h
  · exact huse _
  · rfl

theorem execRet_key (h : execRet s = .next t) : t.key = s.key := by
  unfold execRet at h
  split at h
  case isTrue => cases h; rfl
  case isFalse => cases h; rfl

theorem execCall_key {nnn : BitVec 12} (h : execCall nnn s = .next t) : t.key = s.key := by
  unfold execCall at h
  split at h
  case isTrue => cases h; rfl
  case isFalse => cases h; rfl

/-- The key wait reads the flags and leaves them, whether it finds a key or waits (R203). -/
theorem execLdVxK_key {x : RegIx} (h : execLdVxK x s = .next t) : t.key = s.key := by
  unfold execLdVxK at h
  split at h
  case h_1 => cases h; rfl
  case h_2 => cases h; rfl

/-- Whatever an instruction ends in, a fault included, the flags are as they were (R37). -/
theorem exec_key {i : Instr} (h : exec i s = .next t) : t.key = s.key := by
  cases i with
  | ret => exact execRet_key h
  | call => exact execCall_key h
  | ldVxK => exact execLdVxK_key h
  | skp x => rw [exec_skp] at h; exact withKeyIndex_key h fun _ => State.skipIf_key s _
  | sknp x => rw [exec_sknp] at h; exact withKeyIndex_key h fun _ => State.skipIf_key s _
  | drw | ldBVx | ldMemVx | ldVxMem => exact accessing_key h rfl
  | _ => cases h; rfl

theorem executeWith_key {rand : Byte} {i : Instr} (h : executeWith rand i s = .next t) : t.key = s.key := by
  unfold executeWith at h
  split at h
  case h_1 => cases h; rfl
  case h_2 => exact exec_key h

/-! ### No cycle and no other operation writes a flag -/

/-- A latched fault and a fetch fault leave the flags, and so do the instruction and the end of its cycle. -/
theorem cycleWith_key {rand : Byte} (h : cycleWith rand s = .next t) : t.key = s.key := by
  obtain ⟨_, -, rfl⟩ | ⟨-, -, rfl⟩ | ⟨-, -, u, hu, rfl⟩ := runCycle_cases h
  · rfl
  · rfl
  · rw [endOfCycle_key, executeWith_key hu]

variable (s)

theorem perform_cycle_key (rand : Byte) : (perform (.cycle rand) s).1.key = s.key := by
  cases h : cycleWith rand s with
  | next t => simpa only [perform, h] using cycleWith_key h
  | fault f => simp only [perform, h]
  | refused r => simp only [perform, h]

theorem load_key (offset : Nat) (bytes : List Byte) : (load offset bytes s).1.key = s.key := by
  unfold load
  split
  case isTrue => rfl
  case isFalse => rfl

end

/-- Settles O53: the key operations are writes of one flag, and of the operations left LOAD writes memory, the
accessors write nothing and a CYCLE keeps every flag. -/
theorem onlyKeyOperationsSetKeys : Obligations.OnlyKeyOperationsSetKeys := by
  refine fun k s => ⟨fun j => setKey_set_key s k j true, onlyChanges_setKey s _,
    fun j => setKey_set_key s k j false, onlyChanges_setKey s _, ?others⟩
  case others =>
    intro o hdown hup hinit
    cases o with
    | init font => exact absurd rfl (hinit font)
    | load offset bytes => exact load_key s offset bytes
    | cycle rand => exact perform_cycle_key s rand
    | keyDown j => exact absurd rfl (hdown j)
    | keyUp j => exact absurd rfl (hup j)
    | fbRead | timerRead => rfl

end Sys2Proof.Machine
end

section
/-! PROOFS. The accessors (46_host_operations.md R226, R227): where a cell of the framebuffer stands in FB_READ's
flat sequence, and the statement about both. -/

namespace Sys2Proof.Machine

/-- A column is below 64, so quotient and remainder of `64*r + c` by 64 are the row and the column. -/
theorem fbRead_getElem (s : State) {r : Fin 32} {c : Fin 64} {i : Fin 2048} (hi : i.val = 64 * r.val + c.val) :
    (fbRead s)[i] = s.fb.cell r c := by
  have hrow : i.val / 64 = r.val := by omega
  have hcol : i.val % 64 = c.val := by omega
  simp [fbRead, Framebuffer.cell, hrow, hcol]

/-- Settles O54: both accessors answer the state they were given, and FB_READ's sequence is `fbRead`. -/
theorem accessorsReadWithoutChange : Obligations.AccessorsReadWithoutChange :=
  fun s => ⟨rfl, fbRead s, rfl, fun _ _ _ hi => fbRead_getElem s hi⟩

end Sys2Proof.Machine
end

section
/-! PROOFS. Decoder, encoder and opcode table against one another (30_encoding.md R82, R84 to R88): how the rows
not met so far decode, which words decode to UNMATCHED, and the statements about every word and every
instruction. -/

namespace Sys2Proof

/-! ### The families and rows of RET, CALL, JP_V0, RND, DRW, the key skips and the memory instructions (R85) -/

theorem decode_ret : decode 0x00EE = .ret := rfl

section
variable {op : Word}

theorem decode_family2 (h : (opN1 op).val = 0x2) : decode op = .call (opNnn op) := by simp only [decode, h]

theorem decode_familyB (h : (opN1 op).val = 0xB) : decode op = .jpV0 (opNnn op) := by simp only [decode, h]

theorem decode_familyC (h : (opN1 op).val = 0xC) : decode op = .rnd (opX op) (opKk op) := by simp only [decode, h]

theorem decode_familyD (h : (opN1 op).val = 0xD) : decode op = .drw (opX op) (opY op) (opN op) := by
  simp only [decode, h]

theorem decode_familyE (h : (opN1 op).val = 0xE) : decode op = decodeFamilyE op := by simp only [decode, h]

theorem decodeFamilyE_skp (h : (opKk op).toNat = 0x9E) : decodeFamilyE op = .skp (opX op) := by
  simp only [decodeFamilyE, h]

theorem decodeFamilyE_sknp (h : (opKk op).toNat = 0xA1) : decodeFamilyE op = .sknp (opX op) := by
  simp only [decodeFamilyE, h]

theorem decodeFamilyF_ldBVx (h : (opKk op).toNat = 0x33) : decodeFamilyF op = .ldBVx (opX op) := by
  simp only [decodeFamilyF, h]

theorem decodeFamilyF_ldMemVx (h : (opKk op).toNat = 0x55) : decodeFamilyF op = .ldMemVx (opX op) := by
  simp only [decodeFamilyF, h]

theorem decodeFamilyF_ldVxMem (h : (opKk op).toNat = 0x65) : decodeFamilyF op = .ldVxMem (opX op) := by
  simp only [decodeFamilyF, h]

end

end Sys2Proof

namespace Sys2Proof.Machine

theorem encodedBy_familyE {pattern : Word} {build : Word → Instr} (hfamily : pattern.toNat / 4096 = 0xE)
    (h : ∀ op, (opKk op).toNat = pattern.toNat % 256 → decodeFamilyE op = build op) :
    EncodedBy 0xF0FF pattern build :=
  encodedBy_maskF0FF fun op hn1 hkk => (decode_familyE (hn1.trans hfamily)).trans (h op hkk)

/-! ### The mnemonic of a word that selects a row (R84, R86) -/

/-- Every word that the row selects decodes to an instruction with the row's mnemonic. -/
def RowDecodes (r : OpcodeRow) : Prop := ∀ op, r.selects op = true → mnemonicOf (decode op) = r.mnemonic

theorem rowDecodes_of_encodedBy {m : String} {mask pattern : Word} {build : Word → Instr}
    (h : EncodedBy mask pattern build) (hm : ∀ op, mnemonicOf (build op) = m) : RowDecodes ⟨m, mask, pattern⟩ :=
  fun op hop => (congrArg mnemonicOf (h op (beq_iff_eq.mp hop))).trans (hm op)

theorem rowDecodes_low : ∀ r ∈ opcodeRowsLow, RowDecodes r := by
  simp only [opcodeRowsLow, List.forall_mem_cons]
  exact ⟨rowDecodes_of_encodedBy (encodedBy_maskFFFF decode_cls) fun _ => rfl,
    rowDecodes_of_encodedBy (encodedBy_maskFFFF decode_ret) fun _ => rfl,
    rowDecodes_of_encodedBy (encodedBy_maskF000 fun _ h => decode_family1 h) fun _ => rfl,
    rowDecodes_of_encodedBy (encodedBy_maskF000 fun _ h => decode_family2 h) fun _ => rfl,
    rowDecodes_of_encodedBy (encodedBy_maskF000 fun _ h => decode_family3 h) fun _ => rfl,
    rowDecodes_of_encodedBy (encodedBy_maskF000 fun _ h => decode_family4 h) fun _ => rfl,
    rowDecodes_of_encodedBy (encodedBy_maskF00F fun _ h hn => (decode_family5 h).trans (if_pos hn)) fun _ => rfl,
    rowDecodes_of_encodedBy (encodedBy_maskF000 fun _ h => decode_family6 h) fun _ => rfl,
    rowDecodes_of_encodedBy (encodedBy_maskF000 fun _ h => decode_family7 h) fun _ => rfl,
    rowDecodes_of_encodedBy (encodedBy_family8 rfl fun _ h => decodeFamily8_ldR h) fun _ => rfl,
    rowDecodes_of_encodedBy (encodedBy_family8 rfl fun _ h => decodeFamily8_or h) fun _ => rfl,
    rowDecodes_of_encodedBy (encodedBy_family8 rfl fun _ h => decodeFamily8_and h) fun _ => rfl,
    rowDecodes_of_encodedBy (encodedBy_family8 rfl fun _ h => decodeFamily8_xor h) fun _ => rfl,
    rowDecodes_of_encodedBy (encodedBy_family8 rfl fun _ h => decodeFamily8_addR h) fun _ => rfl,
    rowDecodes_of_encodedBy (encodedBy_family8 rfl fun _ h => decodeFamily8_sub h) fun _ => rfl,
    rowDecodes_of_encodedBy (encodedBy_family8 rfl fun _ h => decodeFamily8_shr h) fun _ => rfl,
    rowDecodes_of_encodedBy (encodedBy_family8 rfl fun _ h => decodeFamily8_subn h) fun _ => rfl,
    rowDecodes_of_encodedBy (encodedBy_family8 rfl fun _ h => decodeFamily8_shl h) fun _ => rfl,
    rowDecodes_of_encodedBy (encodedBy_maskF00F fun _ h hn => (decode_family9 h).trans (if_pos hn)) fun _ => rfl,
    List.forall_mem_nil _⟩

theorem rowDecodes_high : ∀ r ∈ opcodeRowsHigh, RowDecodes r := by
  simp only [opcodeRowsHigh, List.forall_mem_cons]
  exact ⟨rowDecodes_of_encodedBy (encodedBy_maskF000 fun _ h => decode_familyA h) fun _ => rfl,
    rowDecodes_of_encodedBy (encodedBy_maskF000 fun _ h => decode_familyB h) fun _ => rfl,
    rowDecodes_of_encodedBy (encodedBy_maskF000 fun _ h => decode_familyC h) fun _ => rfl,
    rowDecodes_of_encodedBy (encodedBy_maskF000 fun _ h => decode_familyD h) fun _ => rfl,
    rowDecodes_of_encodedBy (encodedBy_familyE rfl fun _ h => decodeFamilyE_skp h) fun _ => rfl,
    rowDecodes_of_encodedBy (encodedBy_familyE rfl fun _ h => decodeFamilyE_sknp h) fun _ => rfl,
    rowDecodes_of_encodedBy (encodedBy_familyF rfl fun _ h => decodeFamilyF_ldVxDt h) fun _ => rfl,
    rowDecodes_of_encodedBy (encodedBy_familyF rfl fun _ h => decodeFamilyF_ldVxK h) fun _ => rfl,
    rowDecodes_of_encodedBy (encodedBy_familyF rfl fun _ h => decodeFamilyF_ldDtVx h) fun _ => rfl,
    rowDecodes_of_encodedBy (encodedBy_familyF rfl fun _ h => decodeFamilyF_ldStVx h) fun _ => rfl,
    rowDecodes_of_encodedBy (encodedBy_familyF rfl fun _ h => decodeFamilyF_addIVx h) fun _ => rfl,
    rowDecodes_of_encodedBy (encodedBy_familyF rfl fun _ h => decodeFamilyF_ldFVx h) fun _ => rfl,
    rowDecodes_of_encodedBy (encodedBy_familyF rfl fun _ h => decodeFamilyF_ldBVx h) fun _ => rfl,
    rowDecodes_of_encodedBy (encodedBy_familyF rfl fun _ h => decodeFamilyF_ldMemVx h) fun _ => rfl,
    rowDecodes_of_encodedBy (encodedBy_familyF rfl fun _ h => decodeFamilyF_ldVxMem h) fun _ => rfl,
    List.forall_mem_nil _⟩

theorem rowDecodes {r : OpcodeRow} (hr : r ∈ opcodeRows) : RowDecodes r :=
  (List.mem_append.mp hr).elim (rowDecodes_low r) (rowDecodes_high r)

theorem opcodeRows_mnemonics_nodup : (opcodeRows.map OpcodeRow.mnemonic).Nodup := by decide

theorem unmatched_is_no_row : ∀ r ∈ opcodeRows, r.mnemonic ≠ "UNMATCHED" := by decide

/-- Settles O2: a word has one decoding, whose mnemonic is that of each row it selects, and no two rows share a
mnemonic. -/
theorem decoderAgreesWithOpcodeTable : Obligations.DecoderAgreesWithOpcodeTable := by
  intro op
  refine ⟨fun r hr => rowDecodes hr op, ?oneRow, decode_of_no_row_selects⟩
  case oneRow =>
    intro r hr q hq hrop hqop
    have hmnemonic : r.mnemonic = q.mnemonic := (rowDecodes hr op hrop).symm.trans (rowDecodes hq op hqop)
    exact List.inj_on_of_nodup_map opcodeRows_mnemonics_nodup hr hq hmnemonic

end Sys2Proof.Machine

namespace Sys2Proof

/-! ### The words that decode to UNMATCHED (R88) -/

section
variable {op : Word}

theorem decodeFamily0_eq_unmatched :
    decodeFamily0 op = .unmatched op ↔ op ≠ 0x00E0 ∧ op ≠ 0x00EE := by
  unfold decodeFamily0
  split
  · next hcls => simp [hcls]
  · next hcls =>
    split
    · next hret => simp [hret]
    · next hret => exact iff_of_true rfl ⟨hcls, hret⟩

theorem decodeFamily8_eq_unmatched :
    decodeFamily8 op = .unmatched op ↔ op.toNat % 16 ∈ [0x8, 0x9, 0xA, 0xB, 0xC, 0xD, 0xF] := by
  have hlt : op.toNat % 16 < 16 := Nat.mod_lt _ (by decide)
  unfold decodeFamily8
  rw [opN_val]
  generalize op.toNat % 16 = n at hlt
  interval_cases n <;> simp

theorem decodeFamilyE_eq_unmatched :
    decodeFamilyE op = .unmatched op ↔ op.toNat % 256 ∉ [0x9E, 0xA1] := by
  unfold decodeFamilyE
  rw [opKk_toNat]
  split
  case h_3 h9E hA1 => exact iff_of_true rfl (by simpa using ⟨h9E, hA1⟩)
  all_goals simp [*]

theorem decodeFamilyF_eq_unmatched :
    decodeFamilyF op = .unmatched op ↔
      op.toNat % 256 ∉ [0x07, 0x0A, 0x15, 0x18, 0x1E, 0x29, 0x33, 0x55, 0x65] := by
  unfold decodeFamilyF
  rw [opKk_toNat]
  split
  case h_10 => simp only [imp_false] at *; simp [*]
  all_goals simp [*]

/-- The list of R88 is the words the decoder leaves unmatched. -/
theorem isUnmatchedWord_iff_decode : isUnmatchedWord op = true ↔ decode op = .unmatched op := by
  have hlt : op.toNat / 4096 < 16 := by have := toNat_lt op; omega
  unfold isUnmatchedWord decode
  rw [opN1_val]
  generalize op.toNat / 4096 = n1 at hlt
  interval_cases n1
  all_goals simp [decodeFamily0_eq_unmatched, decodeFamily8_eq_unmatched, decodeFamilyE_eq_unmatched,
    decodeFamilyF_eq_unmatched]

end

end Sys2Proof

namespace Sys2Proof.Machine

theorem no_row_selects_of_decode_unmatched {op : Word} (h : decode op = .unmatched op) {r : OpcodeRow}
    (hr : r ∈ opcodeRows) : r.selects op = false := by
  by_contra hselects
  have hmnemonic := rowDecodes hr op (eq_true_of_ne_false hselects)
  rw [h] at hmnemonic
  exact unmatched_is_no_row r hr hmnemonic.symm

/-- Settles O3: both say that the word decodes to UNMATCHED. -/
theorem listedUnmatchedWordsAreThoseNoRowSelects : Obligations.ListedUnmatchedWordsAreThoseNoRowSelects := by
  intro op
  rw [isUnmatchedWord_iff_decode]
  exact ⟨fun h _ hr => no_row_selects_of_decode_unmatched h hr, decode_of_no_row_selects⟩

end Sys2Proof.Machine

namespace Sys2Proof

/-! ### The two round trips (R82, R92) -/

/-- Only `unmatched` can carry a word it must not. -/
theorem wellFormed_of_unmatched {i : Instr} (h : ∀ op, i = .unmatched op → isUnmatchedWord op = true) :
    i.wellFormed = true := by
  cases i with
  | unmatched op => exact h op rfl
  | _ => rfl

theorem decode_wellFormed (op : Word) : (decode op).wellFormed = true := by
  refine wellFormed_of_unmatched fun word hword => ?_
  have hop : word = op := by simpa only [hword, encode] using encode_decode op
  subst hop
  exact isUnmatchedWord_iff_decode.mpr hword

/-- Settles O5: the encoding keeps every field, and a word that decodes to UNMATCHED is one of R88's list. -/
theorem encodeOfDecodeIsTheWord : Obligations.EncodeOfDecodeIsTheWord :=
  fun op => ⟨decode_wellFormed op, encode_decode op⟩

/-! ### Decoding a packed word, format by format -/

section
variable {n1 : Nat} (h : n1 < 16)
include h

theorem decode_packNnn {build : BitVec 12 → Instr}
    (hfamily : ∀ op, (opN1 op).val = n1 → decode op = build (opNnn op)) (nnn : BitVec 12) :
    decode (packNnn n1 nnn) = build nnn := by
  rw [hfamily _ (opN1_packNnn h nnn), opNnn_packNnn h]

/-- The low byte is an operand. -/
theorem decode_packXkk {build : RegIx → Byte → Instr}
    (hfamily : ∀ op, (opN1 op).val = n1 → decode op = build (opX op) (opKk op)) (x : RegIx) (kk : Byte) :
    decode (packXkk n1 x kk) = build x kk := by
  rw [hfamily _ (opN1_packXkk h x kk), opX_packXkk h, opKk_packXkk h]

/-- The low byte `kk` selects the row. -/
theorem decode_packX {build : RegIx → Instr} {kk : Byte}
    (hrow : ∀ op, (opN1 op).val = n1 → (opKk op).toNat = kk.toNat → decode op = build (opX op)) (x : RegIx) :
    decode (packXkk n1 x kk) = build x := by
  rw [hrow _ (opN1_packXkk h x kk) (congrArg BitVec.toNat (opKk_packXkk h x kk)), opX_packXkk h]

/-- The last nibble `n` selects the row. -/
theorem decode_packXy {build : RegIx → RegIx → Instr} {n : Fin 16}
    (hrow : ∀ op, (opN1 op).val = n1 → (opN op).val = n.val → decode op = build (opX op) (opY op)) (x y : RegIx) :
    decode (packXyn n1 x y n) = build x y := by
  rw [hrow _ (opN1_packXyn h x y n) (congrArg Fin.val (opN_packXyn h x y n)), opX_packXyn h, opY_packXyn h]

theorem decode_packXyn {build : RegIx → RegIx → Fin 16 → Instr}
    (hfamily : ∀ op, (opN1 op).val = n1 → decode op = build (opX op) (opY op) (opN op)) (x y : RegIx) (n : Fin 16) :
    decode (packXyn n1 x y n) = build x y n := by
  rw [hfamily _ (opN1_packXyn h x y n), opX_packXyn h, opY_packXyn h, opN_packXyn h]

end

section
variable (x y : RegIx)

theorem decode_pack8 {build : RegIx → RegIx → Instr} {n : Fin 16}
    (hrow : ∀ op, (opN op).val = n.val → decodeFamily8 op = build (opX op) (opY op)) :
    decode (packXyn 0x8 x y n) = build x y :=
  decode_packXy (by decide) (fun op h hn => (decode_family8 h).trans (hrow op hn)) x y

theorem decode_packE {build : RegIx → Instr} {kk : Byte}
    (hrow : ∀ op, (opKk op).toNat = kk.toNat → decodeFamilyE op = build (opX op)) :
    decode (packXkk 0xE x kk) = build x :=
  decode_packX (by decide) (fun op h hkk => (decode_familyE h).trans (hrow op hkk)) x

theorem decode_packF {build : RegIx → Instr} {kk : Byte}
    (hrow : ∀ op, (opKk op).toNat = kk.toNat → decodeFamilyF op = build (opX op)) :
    decode (packXkk 0xF x kk) = build x :=
  decode_packX (by decide) (fun op h hkk => (decode_familyF h).trans (hrow op hkk)) x

end

/-- Settles O4, instruction by instruction: the family and the function select its row, and the fields left are
its operands. -/
theorem decodeOfEncodeIsTheInstruction : Obligations.DecodeOfEncodeIsTheInstruction := by
  intro i hi
  cases i with
  | cls => exact decode_cls
  | ret => exact decode_ret
  | jp => exact decode_packNnn (by decide) (fun _ => decode_family1) _
  | call => exact decode_packNnn (by decide) (fun _ => decode_family2) _
  | ldI => exact decode_packNnn (by decide) (fun _ => decode_familyA) _
  | jpV0 => exact decode_packNnn (by decide) (fun _ => decode_familyB) _
  | seKk => exact decode_packXkk (by decide) (fun _ => decode_family3) _ _
  | sneKk => exact decode_packXkk (by decide) (fun _ => decode_family4) _ _
  | ldKk => exact decode_packXkk (by decide) (fun _ => decode_family6) _ _
  | addKk => exact decode_packXkk (by decide) (fun _ => decode_family7) _ _
  | rnd => exact decode_packXkk (by decide) (fun _ => decode_familyC) _ _
  | seR => exact decode_packXy (by decide) (fun _ h hn => (decode_family5 h).trans (if_pos hn)) _ _
  | sneR => exact decode_packXy (by decide) (fun _ h hn => (decode_family9 h).trans (if_pos hn)) _ _
  | ldR => exact decode_pack8 _ _ fun _ => decodeFamily8_ldR
  | or => exact decode_pack8 _ _ fun _ => decodeFamily8_or
  | and => exact decode_pack8 _ _ fun _ => decodeFamily8_and
  | xor => exact decode_pack8 _ _ fun _ => decodeFamily8_xor
  | addR => exact decode_pack8 _ _ fun _ => decodeFamily8_addR
  | sub => exact decode_pack8 _ _ fun _ => decodeFamily8_sub
  | shr => exact decode_pack8 _ _ fun _ => decodeFamily8_shr
  | subn => exact decode_pack8 _ _ fun _ => decodeFamily8_subn
  | shl => exact decode_pack8 _ _ fun _ => decodeFamily8_shl
  | drw => exact decode_packXyn (by decide) (fun _ => decode_familyD) _ _ _
  | skp => exact decode_packE _ fun _ => decodeFamilyE_skp
  | sknp => exact decode_packE _ fun _ => decodeFamilyE_sknp
  | ldVxDt => exact decode_packF _ fun _ => decodeFamilyF_ldVxDt
  | ldVxK => exact decode_packF _ fun _ => decodeFamilyF_ldVxK
  | ldDtVx => exact decode_packF _ fun _ => decodeFamilyF_ldDtVx
  | ldStVx => exact decode_packF _ fun _ => decodeFamilyF_ldStVx
  | addIVx => exact decode_packF _ fun _ => decodeFamilyF_addIVx
  | ldFVx => exact decode_packF _ fun _ => decodeFamilyF_ldFVx
  | ldBVx => exact decode_packF _ fun _ => decodeFamilyF_ldBVx
  | ldMemVx => exact decode_packF _ fun _ => decodeFamilyF_ldMemVx
  | ldVxMem => exact decode_packF _ fun _ => decodeFamilyF_ldVxMem
  | unmatched op => exact isUnmatchedWord_iff_decode.mp hi

/-- Settles O6: ten closed words, each decoded by evaluation. -/
theorem wordsDecodeAsTheTableWritesThem : Obligations.WordsDecodeAsTheTableWritesThem := by
  unfold Obligations.WordsDecodeAsTheTableWritesThem
  decide

end Sys2Proof
end

section
/-! PROOFS. How an instruction can end (40_cycle.md R106, R111; 60_exceptions.md R240, R245): in its own fault or
completed, with the program counter of its class; and which parts it writes (10_state.md R23, R37). -/

namespace Sys2Proof.Machine

/-! ### RET, CALL and LD_VX_K, case by case -/

section
variable {s t : State} (nnn : BitVec 12) (x : RegIx)

theorem exec_ret_ok {i : Fin 16} (h : s.sp = i.succ) :
    exec .ret s = .next ((s.setSp i.castSucc).setPc (s.stack[i] + 2)) := by
  have hsome : s.sp.val ≠ 0 := by rw [h, Fin.val_succ]; omega
  refine (dif_neg hsome).trans ?_
  simp only [h, Fin.val_succ, Nat.add_sub_cancel]
  rfl

theorem exec_call_ok {i : Fin 16} (h : s.sp = i.castSucc) :
    exec (.call nnn) s = .next (((s.setStack (s.stack.set i s.pc)).setSp i.succ).setPc (addressOf nnn)) := by
  have hroom : s.sp.val ≠ 16 := by rw [h, Fin.val_castSucc]; omega
  refine (dif_neg hroom).trans ?_
  simp only [h, Fin.val_castSucc]
  rfl

theorem exec_ret_fault (h : s.sp.val = 0) : TakesFault .ret s (.stackUnderflow s.pc) := dif_pos h

theorem exec_call_fault (h : s.sp.val = 16) : TakesFault (.call nnn) s (.stackOverflow s.pc) := dif_pos h

/-- RET ends in the fault of an empty stack or pops. -/
theorem exec_ret_cases (h : exec .ret s = .next t) :
    (s.sp.val = 0 ∧ t = { s with fault := some (.stackUnderflow s.pc) }) ∨
    ∃ i : Fin 16, s.sp = i.succ ∧ t = (s.setSp i.castSucc).setPc (s.stack[i] + 2) := by
  rcases Fin.eq_zero_or_eq_succ s.sp with h0 | ⟨i, hi⟩
  · have h0 : s.sp.val = 0 := congrArg Fin.val h0
    rw [exec_ret_fault h0] at h; cases h; exact .inl ⟨h0, rfl⟩
  · rw [exec_ret_ok hi] at h; cases h; exact .inr ⟨i, hi, rfl⟩

/-- CALL ends in the fault of a full stack or pushes. -/
theorem exec_call_cases (h : exec (.call nnn) s = .next t) :
    (s.sp.val = 16 ∧ t = { s with fault := some (.stackOverflow s.pc) }) ∨
    ∃ i : Fin 16, s.sp = i.castSucc ∧
      t = ((s.setStack (s.stack.set i s.pc)).setSp i.succ).setPc (addressOf nnn) := by
  rcases Fin.eq_castSucc_or_eq_last s.sp with ⟨i, hi⟩ | h16
  · rw [exec_call_ok nnn hi] at h; cases h; exact .inr ⟨i, hi, rfl⟩
  · have h16 : s.sp.val = 16 := congrArg Fin.val h16
    rw [exec_call_fault nnn h16] at h; cases h; exact .inl ⟨h16, rfl⟩

/-- LD_VX_K takes the least pressed key or waits. -/
theorem exec_ldVxK_cases (h : exec (.ldVxK x) s = .next t) :
    (∃ k : RegIx, (s.key[k] = true ∧ ∀ j : RegIx, j < k → s.key[j] = false) ∧
      t = (s.setReg x (keyByte k)).advance) ∨
    ((∀ k : RegIx, s.key[k] = false) ∧ t = s) := by
  cases hk : lowestKey s.key with
  | some k =>
    have hleast := lowestKey_some.mp hk
    rw [exec_ldVxK_pressed x hleast.1 hleast.2] at h; cases h; exact .inl ⟨k, hleast, rfl⟩
  | none =>
    have hnone := lowestKey_none.mp hk
    rw [exec_ldVxK_waits x hnone] at h; cases h; exact .inr ⟨hnone, rfl⟩

end

/-! ### The faults -/

/-- The faults an instruction can take on a state, each with its condition and what it records (R240). -/
inductive OwnFault (s : State) : Instr → Fault → Prop
  | drw (x y n) (h : 1 ≤ n.val) (hlast : 4095 < s.I.toNat + n.val - 1) :
    OwnFault s (.drw x y n) (.memIndexOutOfRange s.I (s.I.toNat + n.val - 1) s.pc)
  | ldBVx (x) (hlast : 4095 < s.I.toNat + 2) :
    OwnFault s (.ldBVx x) (.memIndexOutOfRange s.I (s.I.toNat + 2) s.pc)
  | ldMemVx (x) (hlast : 4095 < s.I.toNat + x.val) :
    OwnFault s (.ldMemVx x) (.memIndexOutOfRange s.I (s.I.toNat + x.val) s.pc)
  | ldVxMem (x) (hlast : 4095 < s.I.toNat + x.val) :
    OwnFault s (.ldVxMem x) (.memIndexOutOfRange s.I (s.I.toNat + x.val) s.pc)
  | skp (x) (h : 16 ≤ (s.reg x).toNat) : OwnFault s (.skp x) (.keyIndexOutOfRange (s.reg x) s.pc)
  | sknp (x) (h : 16 ≤ (s.reg x).toNat) : OwnFault s (.sknp x) (.keyIndexOutOfRange (s.reg x) s.pc)
  | call (nnn) (h : s.sp.val = 16) : OwnFault s (.call nnn) (.stackOverflow s.pc)
  | ret (h : s.sp.val = 0) : OwnFault s .ret (.stackUnderflow s.pc)

theorem OwnFault.takesFault {i : Instr} {s : State} {f : Fault} (h : OwnFault s i f) : TakesFault i s f := by
  cases h with
  | drw x y n h hlast => exact accessing_fault h hlast
  | ldBVx x hlast => exact accessing_fault (by decide) hlast
  | ldMemVx x hlast | ldVxMem x hlast => exact accessing_fault (Nat.succ_pos _) hlast
  | skp x h => rw [TakesFault, exec_skp, withKeyIndex_fault h]
  | sknp x h => rw [TakesFault, exec_sknp, withKeyIndex_fault h]
  | call nnn h => exact exec_call_fault nnn h
  | ret h => exact exec_ret_fault h

/-! ### The two ends of an instruction -/

section
variable {s t : State}

theorem accessing_total (count : Nat) (s done : State) : ∃ t, accessing count s done = .next t := by
  unfold accessing
  split
  · exact ⟨_, takeFault_eq _ s⟩
  · exact ⟨done, rfl⟩

theorem withKeyIndex_total (v : Byte) (s : State) (use : RegIx → State) : ∃ t, withKeyIndex v s use = .next t := by
  unfold withKeyIndex
  split
  · exact ⟨_, rfl⟩
  · exact ⟨_, takeFault_eq _ s⟩

/-- Every instruction has a next state (R111). -/
theorem exec_total (i : Instr) (s : State) : ∃ t, exec i s = .next t := by
  cases i with
  | ret =>
    rcases Fin.eq_zero_or_eq_succ s.sp with h | ⟨i, h⟩
    · exact ⟨_, exec_ret_fault (congrArg Fin.val h)⟩
    · exact ⟨_, exec_ret_ok h⟩
  | call nnn =>
    rcases Fin.eq_castSucc_or_eq_last s.sp with ⟨i, h⟩ | h
    · exact ⟨_, exec_call_ok nnn h⟩
    · exact ⟨_, exec_call_fault nnn (congrArg Fin.val h)⟩
  | ldVxK x =>
    rw [exec_ldVxK, execLdVxK]
    split
    · exact ⟨_, rfl⟩
    · exact ⟨s, rfl⟩
  | skp x => rw [exec_skp]; exact withKeyIndex_total _ s _
  | sknp x => rw [exec_sknp]; exact withKeyIndex_total _ s _
  | drw | ldBVx | ldMemVx | ldVxMem => exact accessing_total _ s _
  | _ => exact ⟨_, rfl⟩

theorem advances_setV (s : State) (v : Vector Byte 16) : Advances s (s.setV v).advance := advances_advance _

/-- A skip moves `pc` as R106 writes it, by a test that agrees with the condition. -/
theorem skipIf_pc_policy {p : Prop} [Decidable p] {c : Bool} (hc : c = true ↔ p) (s : State) :
    (s.skipIf c).pc.toNat = if p then (s.pc.toNat + 4) % 65536 else (s.pc.toNat + 2) % 65536 := by
  rw [State.skipIf_pc_toNat, if_congr hc rfl rfl]
  split <;> rfl

/-- The key whose index is a register's value is pressed (R201). -/
theorem indexed_key_iff {v : Byte} (hv : v.toNat < 16) :
    s.key[(⟨v.toNat, hv⟩ : RegIx)] = true ↔ ∃ k : RegIx, k.val = v.toNat ∧ s.key[k] = true :=
  ⟨fun h => ⟨_, rfl, h⟩, fun ⟨_, hk, h⟩ => (Fin.ext hk : _ = (⟨v.toNat, hv⟩ : RegIx)) ▸ h⟩

/-- An access ends in the range fault or in the state it was to end in. -/
theorem accessing_ends {i : Instr} {count : Nat} {done : State} (h : accessing count s done = .next t)
    (hfault : done.fault = s.fault) (hpc : done.pc.toNat = pcPolicy i s)
    (hown : 1 ≤ count → 4095 < s.I.toNat + count - 1 →
      OwnFault s i (.memIndexOutOfRange s.I (s.I.toNat + count - 1) s.pc)) :
    (∃ f, OwnFault s i f ∧ t = { s with fault := some f }) ∨ (t.fault = s.fault ∧ t.pc.toNat = pcPolicy i s) := by
  obtain ⟨-, rfl⟩ | ⟨hcount, hlast, rfl⟩ := accessing_cases h
  · exact .inr ⟨hfault, hpc⟩
  · exact .inl ⟨_, hown hcount hlast, rfl⟩

/-- Every instruction ends in its own fault with nothing else changed (R245), or takes none and moves `pc` by the
policy of its class (R106). -/
theorem exec_cases {i : Instr} (h : exec i s = .next t) :
    (∃ f, OwnFault s i f ∧ t = { s with fault := some f }) ∨ (t.fault = s.fault ∧ t.pc.toNat = pcPolicy i s) := by
  cases i with
  | ret =>
    obtain ⟨h0, rfl⟩ | ⟨i, hi, rfl⟩ := exec_ret_cases h
    · exact .inl ⟨_, .ret h0, rfl⟩
    · exact .inr ⟨rfl, by simp [pcPolicy, hi, BitVec.toNat_add]⟩
  | call nnn =>
    obtain ⟨h16, rfl⟩ | ⟨i, hi, rfl⟩ := exec_call_cases nnn h
    · exact .inl ⟨_, .call nnn h16, rfl⟩
    · exact .inr ⟨rfl, addressOf_toNat nnn⟩
  | ldVxK x =>
    obtain ⟨k, ⟨hk, -⟩, rfl⟩ | ⟨hnone, rfl⟩ := exec_ldVxK_cases x h
    · exact .inr ⟨rfl, (advances_advance _).trans (if_pos ⟨k, hk⟩).symm⟩
    · exact .inr ⟨rfl, by simp [pcPolicy, hnone]⟩
  | skp x =>
    rw [exec_skp] at h
    obtain ⟨hk, rfl⟩ | ⟨hk, rfl⟩ := withKeyIndex_cases h
    · exact .inr ⟨rfl, skipIf_pc_policy (indexed_key_iff hk) s⟩
    · exact .inl ⟨_, .skp x hk, rfl⟩
  | sknp x =>
    rw [exec_sknp] at h
    obtain ⟨hk, rfl⟩ | ⟨hk, rfl⟩ := withKeyIndex_cases h
    · refine .inr ⟨rfl, (skipIf_pc_policy ?_ s).trans (ite_not _ _ _)⟩
      rw [← indexed_key_iff hk, Bool.not_eq_true, Bool.not_eq_true']
    · exact .inl ⟨_, .sknp x hk, rfl⟩
  | drw x y n => exact accessing_ends h rfl (advances_advance _) (.drw x y n)
  | ldBVx x => exact accessing_ends h rfl (advances_advance _) fun _ => .ldBVx x
  | ldMemVx x => exact accessing_ends h rfl (advances_advance _) fun _ => .ldMemVx x
  | ldVxMem x => exact accessing_ends h (by simp) (advances_setV s _) fun _ => .ldVxMem x
  | jp nnn => cases h; exact .inr ⟨rfl, addressOf_toNat nnn⟩
  | jpV0 nnn => cases h; exact .inr ⟨rfl, by simp [pcPolicy, BitVec.toNat_add]⟩
  | seKk x kk => cases h; exact .inr ⟨rfl, skipIf_pc_policy beq_iff_eq s⟩
  | sneKk x kk => cases h; exact .inr ⟨rfl, skipIf_pc_policy bne_iff_ne s⟩
  | seR x y => cases h; exact .inr ⟨rfl, skipIf_pc_policy beq_iff_eq s⟩
  | sneR x y => cases h; exact .inr ⟨rfl, skipIf_pc_policy bne_iff_ne s⟩
  | _ => cases h; exact .inr ⟨rfl, advances_advance _⟩

end

/-- Settles O14: an instruction that does not end in its own fault leaves the latch as it was. -/
theorem eachInstructionTakesOnlyItsOwnFault : Obligations.EachInstructionTakesOnlyItsOwnFault := by
  intro i s t f hs h hf
  obtain ⟨g, hown, rfl⟩ | ⟨hfault, -⟩ := exec_cases h
  · obtain rfl : g = f := Option.some.inj hf
    cases hown with
    | drw x y n hn hlast => exact ⟨rfl, rfl, hlast, .inl ⟨x, y, n, rfl, hn, rfl⟩⟩
    | ldBVx x hlast => exact ⟨rfl, rfl, hlast, .inr (.inl ⟨x, rfl, rfl⟩)⟩
    | ldMemVx x hlast => exact ⟨rfl, rfl, hlast, .inr (.inr ⟨x, .inl rfl, rfl⟩)⟩
    | ldVxMem x hlast => exact ⟨rfl, rfl, hlast, .inr (.inr ⟨x, .inr rfl, rfl⟩)⟩
    | skp x hk => exact ⟨rfl, hk, x, .inl rfl, rfl⟩
    | sknp x hk => exact ⟨rfl, hk, x, .inr rfl, rfl⟩
    | call nnn h16 => exact ⟨rfl, h16, nnn, rfl⟩
    | ret h0 => exact ⟨rfl, h0, rfl⟩
  · exact absurd (hf.symm.trans (hfault.trans hs)) (Option.some_ne_none f)

/-- Settles O15: the two ends of an instruction, told apart by the latch. -/
theorem pcFollowsThePolicyOfItsClass : Obligations.PcFollowsThePolicyOfItsClass := by
  intro i s t hs h
  obtain ⟨f, -, rfl⟩ | ⟨hfault, hpc⟩ := exec_cases h
  · exact ⟨fun hnone => absurd hnone (Option.some_ne_none f), fun _ => rfl⟩
  · exact ⟨fun _ => hpc, fun hsome => absurd (hfault.trans hs) hsome⟩

/-! ### The writers of each part (R23, R37) -/

/-- Settles O16, instruction by instruction: the written parts stand in what it ends in, and a fault writes the
latch alone. -/
theorem eachPartHasOnlyItsWriters : Obligations.EachPartHasOnlyItsWriters := by
  intro i s t h
  cases i with
  | ret => obtain ⟨-, rfl⟩ | ⟨_, -, rfl⟩ := exec_ret_cases h <;> simp
  | call nnn => obtain ⟨-, rfl⟩ | ⟨_, -, rfl⟩ := exec_call_cases nnn h <;> simp
  | ldVxK x => obtain ⟨_, -, rfl⟩ | ⟨-, rfl⟩ := exec_ldVxK_cases x h <;> simp
  | skp x => rw [exec_skp] at h; obtain ⟨_, rfl⟩ | ⟨-, rfl⟩ := withKeyIndex_cases h <;> simp
  | sknp x => rw [exec_sknp] at h; obtain ⟨_, rfl⟩ | ⟨-, rfl⟩ := withKeyIndex_cases h <;> simp
  | drw | ldBVx | ldMemVx | ldVxMem => obtain ⟨-, rfl⟩ | ⟨-, -, rfl⟩ := accessing_cases h <;> simp
  | rnd x kk => cases h; simp [rndWith]
  | _ => cases h; simp

theorem State.eq_of_setReg_reg_ne {s : State} {x r : RegIx} {v : Byte} (h : (s.setReg x v).reg r ≠ s.reg r) :
    x = r := by
  by_contra hne
  exact h (State.setReg_reg_of_ne s x v (Ne.symm hne))

/-- A load of the block up to `x` leaves the registers above (R176). -/
theorem setV_loadedRegisters_reg (s : State) (x r : RegIx) : (s.setV (loadedRegisters s x)).advance.reg r =
    if r ≤ x then s.mem.read (s.I.toNat + r.val) else s.reg r := loadedRegisters_getElem s x r

/-- Settles O17: the flag setters and the loads into `x` are all that write a register, and a plain destination that
is not VF leaves VF alone. -/
theorem flagRegisterHasOnlyItsWriters : Obligations.FlagRegisterHasOnlyItsWriters := by
  intro i s t h hVF
  cases i with
  | addR | sub | shr | subn | shl | drw => simp
  | ldKk x | addKk x | rnd x | ldR x | or x | and x | xor x | ldVxDt x =>
    cases h
    obtain rfl := State.eq_of_setReg_reg_ne hVF
    simp
  | ldVxK x =>
    obtain ⟨_, -, rfl⟩ | ⟨-, rfl⟩ := exec_ldVxK_cases x h
    · obtain rfl := State.eq_of_setReg_reg_ne hVF
      simp
    · exact absurd rfl hVF
  | ldVxMem x =>
    obtain ⟨-, rfl⟩ | ⟨-, -, rfl⟩ := accessing_cases h
    · have hx : VF ≤ x := by
        by_contra hx
        exact hVF ((setV_loadedRegisters_reg s x VF).trans (if_neg hx))
      obtain rfl : x = VF := le_antisymm (Fin.le_last x) hx
      simp
    · exact absurd rfl hVF
  | ret => obtain ⟨-, rfl⟩ | ⟨_, -, rfl⟩ := exec_ret_cases h <;> exact absurd rfl hVF
  | call nnn => obtain ⟨-, rfl⟩ | ⟨_, -, rfl⟩ := exec_call_cases nnn h <;> exact absurd rfl hVF
  | skp x => rw [exec_skp] at h; obtain ⟨_, rfl⟩ | ⟨-, rfl⟩ := withKeyIndex_cases h <;> exact absurd rfl hVF
  | sknp x => rw [exec_sknp] at h; obtain ⟨_, rfl⟩ | ⟨-, rfl⟩ := withKeyIndex_cases h <;> exact absurd rfl hVF
  | ldBVx | ldMemVx => obtain ⟨-, rfl⟩ | ⟨-, -, rfl⟩ := accessing_cases h <;> exact absurd rfl hVF
  | _ => cases h; exact absurd rfl hVF

end Sys2Proof.Machine
end

section
/-! PROOFS. The cycle (40_cycle.md R100, R101, R108 to R112): what it does with what its instruction ends in, the
tick, the reports, and where the random byte goes. -/

namespace Sys2Proof.Machine

/-! ### One step of a machine that runs an instruction -/

section
variable {s t : State}

/-- Execute stages that agree on the fetched instruction make the same cycle. -/
theorem runCycle_congr {run run' : Instr → State → Host.Outcome State Fault Refusal}
    (h : ∀ i, Runs s i → run i s = run' i s) : runCycle run s = runCycle run' s := by
  cases hf : s.fault with
  | some f => rw [runCycle_faulted hf, runCycle_faulted hf]
  | none =>
    by_cases hpc : s.pc.toNat + 1 < 4096
    · rw [runCycle_runs hf (fetch_ok hpc), runCycle_runs hf (fetch_ok hpc), h _ ⟨hf, hpc, rfl⟩]
    · rw [runCycle_fetchFault hf (by omega), runCycle_fetchFault hf (by omega)]

/-- The cycle of a fetched instruction, over any execute stage (R100). -/
theorem runCycle_of_runs {run : Instr → State → Host.Outcome State Fault Refusal} {i : Instr} (hruns : Runs s i)
    (hrun : run i s = .next t) : runCycle run s = .next (endOfCycle t) := by
  obtain ⟨hs, hpc, rfl⟩ := hruns
  rw [runCycle_runs hs (fetch_ok hpc), hrun]
  rfl

end

/-- Settles O8: the end of the cycle ticks, or leaves a faulted state alone. -/
theorem stepRunsTheDecodedInstruction : Obligations.StepRunsTheDecodedInstruction := by
  intro s t i hruns hexec
  refine ⟨fun hok => ?ok, fun hfault => ?fault⟩
  case ok =>
    exact ⟨_, step_of_runs hruns hexec (hok.trans hruns.1.symm), nextDraw_tick_DT_toNat t, nextDraw_tick_ST_toNat t,
      rfl, onlyChanges_nextDraw_tick t⟩
  case fault =>
    obtain ⟨f, hf⟩ := Option.ne_none_iff_exists'.mp hfault
    rw [step, runCycle_of_runs hruns hexec, endOfCycle_fault t hf]

/-! ### The tick (R108) -/

theorem onlyChanges_tick (s : State) : OnlyChanges [.DT, .ST] s (tick s) := by
  intro p hp
  cases p with
  | DT | ST => simp at hp
  | V | mem => intro _; rfl
  | _ => rfl

/-- Settles O11: each timer goes down by 1 in the naturals, where 0 is the floor. -/
theorem tickLowersEachTimerByOneToAFloor : Obligations.TickLowersEachTimerByOneToAFloor := by
  refine ⟨fun s => ?timers, fun s t i hruns hexec hok => step_of_runs hruns hexec (hok.trans hruns.1.symm)⟩
  case timers =>
    have hDT : (tick s).DT.toNat = s.DT.toNat - 1 := tickTimer_toNat s.DT
    have hST : (tick s).ST.toNat = s.ST.toNat - 1 := tickTimer_toNat s.ST
    exact ⟨by omega, by omega, by omega, by omega, onlyChanges_tick s⟩

/-! ### The execute stage with a given random byte (R112) -/

theorem rnd_or_executeWith_eq_exec (i : Instr) :
    (∃ x kk, i = .rnd x kk) ∨ ∀ (rand : Byte) (s : State), executeWith rand i s = exec i s := by
  cases i with
  | rnd x kk => exact .inl ⟨x, kk, rfl⟩
  | _ => exact .inr fun _ _ => rfl

section
variable {s t : State} {i : Instr} {rand : Byte}

theorem executeWith_rnd (rand : Byte) (x : RegIx) (kk : Byte) (s : State) :
    executeWith rand (.rnd x kk) s = .next (s.setReg x (rand &&& kk)).advance := rfl

/-- With a given byte RND completes, and every other instruction ends as ever. -/
theorem executeWith_cases (h : executeWith rand i s = .next t) :
    (∃ x kk, i = .rnd x kk ∧ t = (s.setReg x (rand &&& kk)).advance) ∨ exec i s = .next t := by
  obtain ⟨x, kk, rfl⟩ | hexec := rnd_or_executeWith_eq_exec i
  · rw [executeWith_rnd] at h; cases h
    exact .inl ⟨x, kk, rfl, rfl⟩
  · exact .inr (hexec rand s ▸ h)

theorem executeWith_total (rand : Byte) (i : Instr) (s : State) : ∃ t, executeWith rand i s = .next t := by
  obtain ⟨x, kk, rfl⟩ | hexec := rnd_or_executeWith_eq_exec i
  · exact ⟨_, executeWith_rnd rand x kk s⟩
  · rw [hexec]; exact exec_total i s

/-- With any byte an instruction changes the latch alone or leaves it (R245). -/
theorem executeWith_fault (h : executeWith rand i s = .next t) :
    (∃ f, t = { s with fault := some f }) ∨ t.fault = s.fault := by
  obtain ⟨x, kk, -, rfl⟩ | hexec := executeWith_cases h
  · exact .inr rfl
  · obtain ⟨f, -, rfl⟩ | ⟨hfault, -⟩ := exec_cases hexec
    · exact .inl ⟨f, rfl⟩
    · exact .inr hfault

end

/-! ### What a cycle ends in and reports -/

section
variable {s t : State} {rand : Byte}

theorem cycleWith_total (rand : Byte) (s : State) : ∃ t, cycleWith rand s = .next t := by
  cases hf : s.fault with
  | some f => exact ⟨s, runCycle_faulted hf⟩
  | none =>
    by_cases hpc : s.pc.toNat + 1 < 4096
    · obtain ⟨t, ht⟩ := executeWith_total rand _ s
      exact ⟨_, runCycle_of_runs ⟨hf, hpc, rfl⟩ ht⟩
    · exact ⟨_, runCycle_fetchFault hf (by omega)⟩

theorem perform_cycle (h : cycleWith rand s = .next t) : perform (.cycle rand) s = (t, .cycled (cycleResult t)) := by
  simp only [perform, h]

theorem cycleResult_ok (h : t.fault = none) : cycleResult t = .ok := by simp only [cycleResult, h]

theorem cycleResult_faulted {f : Fault} (h : t.fault = some f) : cycleResult t = .faulted f := by
  simp only [cycleResult, h]

/-- A latch that is written with what it holds is as it was. -/
theorem with_fault_of_fault {f : Option Fault} (h : s.fault = f) : { s with fault := f } = s := by rw [← h]

/-- A cycle ends in a state that has not faulted, or changes nothing but the latch (R245, R246). -/
theorem cycleWith_cases (h : cycleWith rand s = .next t) :
    t.fault = none ∨ ∃ f, t = { s with fault := some f } := by
  obtain ⟨f, hf, rfl⟩ | ⟨-, -, rfl⟩ | ⟨hs, -, u, hu, rfl⟩ := runCycle_cases h
  · exact .inr ⟨f, (with_fault_of_fault hf).symm⟩
  · exact .inr ⟨_, rfl⟩
  · obtain ⟨f, rfl⟩ | hfault := executeWith_fault hu
    · exact .inr ⟨f, endOfCycle_fault _ rfl⟩
    · exact .inl ((endOfCycle_faultLatch u).trans (hfault.trans hs))

end

/-- Settles O12: a cycle's report is its latch, read after it. -/
theorem cycleIsOkOrChangesOnlyTheLatch : Obligations.CycleIsOkOrChangesOnlyTheLatch := by
  intro s rand
  obtain ⟨t, ht⟩ := cycleWith_total rand s
  refine ⟨t, ht, perform_cycle ht, ?_⟩
  obtain hok | ⟨f, rfl⟩ := cycleWith_cases ht
  · exact .inl ⟨hok, cycleResult_ok hok⟩
  · exact .inr ⟨f, rfl, cycleResult_faulted rfl⟩

/-- Settles O10: the latch test comes first in the cycle. -/
theorem faultedMachineIsInert : Obligations.FaultedMachineIsInert := by
  intro s f rand hf
  refine ⟨runCycle_faulted hf, ?report⟩
  case report => rw [perform_cycle (runCycle_faulted hf), cycleResult_faulted hf]

/-- Settles O13: cycles over two execute stages agree where the stages agree on the fetched instruction. -/
theorem randomByteReachesOnlyRnd : Obligations.RandomByteReachesOnlyRnd := by
  intro s r q
  refine ⟨runCycle_congr fun i _ => (executeWith_free i s).symm, fun hrnd => runCycle_congr fun i hruns => ?other⟩
  case other =>
    obtain ⟨x, kk, rfl⟩ | hexec := rnd_or_executeWith_eq_exec i
    · exact absurd hruns (hrnd x kk)
    · rw [hexec, hexec]

end Sys2Proof.Machine
end

section
/-! PROOFS. Canonical memories (log entry 10) and the invariant (10_state.md R36): a canonical memory is what it
reads as, and the invariant holds after INIT and is kept by every instruction, cycle and host operation. -/

namespace Sys2Proof.Machine

/-! ### A canonical memory is determined by its reads (20_memory.md R51) -/

/-- A canonical memory lists exactly the addresses that do not read as their reset content. -/
theorem Memory.mem_iff_read {m : Memory} (hm : m.wf) (a : Nat) (v : Byte) :
    (a, v) ∈ m ↔ m.read a = v ∧ v ≠ Config.resetByte a := by
  induction m with
  | nil => simpa [Memory.read] using fun h => h.symm
  | cons c rest ih =>
    obtain ⟨b, w⟩ := c
    obtain ⟨hsorted, hcells⟩ := hm
    obtain ⟨hbelow, hsorted⟩ := List.pairwise_cons.mp hsorted
    obtain ⟨⟨-, hw⟩, hcells⟩ := List.forall_mem_cons.mp hcells
    rw [List.mem_cons, Memory.read]
    by_cases hba : b = a
    · subst hba
      have hnot : (b, v) ∉ rest := fun h => Nat.lt_irrefl b (hbelow _ h)
      simp only [hnot, or_false, Prod.mk.injEq, true_and, if_true]
      exact ⟨fun h => ⟨h.symm, h ▸ hw⟩, fun h => h.1.symm⟩
    · have hne : (a, v) ≠ (b, w) := fun h => hba (congrArg Prod.fst h).symm
      simp only [hne, false_or, if_neg hba]
      exact ih ⟨hsorted, hcells⟩

/-- Settles O37: the reads fix which cells are listed, and a list with rising addresses is fixed by its cells. -/
theorem canonicalMemoriesThatReadAlikeAreEqual : Obligations.CanonicalMemoriesThatReadAlikeAreEqual := by
  intro m m' hm hm' hread
  have hirrefl : Std.Irrefl fun c d : Host.Cell => c.1 < d.1 := ⟨fun c => Nat.lt_irrefl c.1⟩
  refine List.Pairwise.eq_of_mem_iff hm.1 hm'.1 fun c => ?_
  rw [Memory.mem_iff_read hm, Memory.mem_iff_read hm', hread]

/-! ### Reset -/

theorem initialise_mem_wf (font : Font) (draws : Nat) : (initialise font draws).mem.wf :=
  Memory.wf_writeBytes _ _ Memory.wf_nil

/-- INIT with the default FONT writes what an empty memory reads as. -/
theorem initialise_default_mem (draws : Nat) : (initialise Config.font draws).mem = [] := by
  refine canonicalMemoriesThatReadAlikeAreEqual _ _ (initialise_mem_wf _ _) Memory.wf_nil fun a => ?_
  show _ = Config.resetByte a
  by_cases ha : a < 80
  · exact (initialise_read_font Config.font draws ⟨a, ha⟩).trans (dif_pos ha).symm
  · exact (initialise_read_above Config.font draws (by omega)).trans (show Config.resetByte a = 0 from dif_neg ha).symm

/-- Settles O48: the two states can differ in memory alone, and there they read alike. -/
theorem resetIsInitWithTheDefaultFont : Obligations.ResetIsInitWithTheDefaultFont := by
  refine ⟨?reset, rfl, fun _ => rfl⟩
  case reset =>
    have hmem := initialise_default_mem State.reset.draws
    rw [initialise_mem] at hmem
    rw [initialise, hmem]
    rfl

/-! ### The invariant -/

theorem inv_initialise (font : Font) (draws : Nat) : Inv (initialise font draws) where
  mem := initialise_mem_wf font draws
  pc := by simp
  stack := by simp

/-- Settles O49: the reset state is an INIT. -/
theorem invariantHoldsAtReset : Obligations.InvariantHoldsAtReset := by
  refine ⟨?reset, inv_initialise⟩
  case reset => rw [resetIsInitWithTheDefaultFont.1]; exact inv_initialise _ _

section
variable {s t : State}

/-- The highest `pc` is JP_V0's, 0xFFF + 0xFF (R36). -/
theorem pcPolicy_le (hinv : Inv s) (hpc : s.pc.toNat ≤ 4094) (i : Instr) : pcPolicy i s ≤ 0x10FE := by
  cases i with
  | jp nnn | call nnn => have := nnn.isLt; simp only [pcPolicy]; omega
  | jpV0 nnn => have := nnn.isLt; have := (s.reg 0).isLt; simp only [pcPolicy]; omega
  | ret =>
    simp only [pcPolicy]
    split
    · next h => have := hinv.stack ⟨_, h⟩; simp only [Fin.getElem_fin] at this; omega
    · omega
  | seKk | sneKk | seR | sneR | skp | sknp | ldVxK => simp only [pcPolicy]; split <;> omega
  | _ => simp only [pcPolicy]; omega

theorem exec_mem_wf {i : Instr} (h : exec i s = .next t) (hmem : s.mem.wf) : t.mem.wf := by
  obtain ⟨-, -, -, -, -, -, hwriters, -⟩ := eachPartHasOnlyItsWriters i s t h
  by_cases hsame : t.mem = s.mem
  · rwa [hsame]
  · obtain ⟨x, rfl⟩ | ⟨x, rfl⟩ := hwriters hsame
    all_goals
      obtain ⟨-, rfl⟩ | ⟨-, -, rfl⟩ := accessing_cases h
      · exact Memory.wf_writeBytes _ _ hmem
      · exact hmem

/-- CALL pushes the `pc` it was fetched from, at most 4094 (R36). -/
theorem exec_stack_le {i : Instr} (h : exec i s = .next t) (hpc : s.pc.toNat ≤ 4094)
    (hstack : ∀ k : Fin 16, s.stack[k].toNat ≤ 4094) (k : Fin 16) : t.stack[k].toNat ≤ 4094 := by
  obtain ⟨-, -, hwriters, -⟩ := eachPartHasOnlyItsWriters i s t h
  by_cases hsame : t.stack = s.stack
  · rw [hsame]; exact hstack k
  · obtain ⟨nnn, rfl⟩ := hwriters hsame
    obtain ⟨-, rfl⟩ | ⟨j, -, rfl⟩ := exec_call_cases nnn h
    · exact hstack k
    · show (s.stack.set j s.pc)[k.val].toNat ≤ 4094
      rw [Vector.getElem_set]
      split
      · exact hpc
      · exact hstack k

theorem exec_keeps_inv {i : Instr} (h : exec i s = .next t) (hpc : s.pc.toNat ≤ 4094) (hinv : Inv s) : Inv t := by
  obtain ⟨f, -, rfl⟩ | ⟨-, hpolicy⟩ := exec_cases h
  · exact ⟨hinv.mem, hinv.pc, hinv.stack⟩
  · exact ⟨exec_mem_wf h hinv.mem, hpolicy ▸ pcPolicy_le hinv hpc i, exec_stack_le h hpc hinv.stack⟩

/-- A cycle over any execute stage keeps the invariant if the stage does: a fetched instruction stands at 4094 or
below, and the tick touches nothing of the invariant. -/
theorem runCycle_keeps_inv {run : Instr → State → Host.Outcome State Fault Refusal}
    (hrun : ∀ i u, run i s = .next u → s.pc.toNat ≤ 4094 → Inv u) (h : runCycle run s = .next t) (hinv : Inv s) :
    Inv t := by
  obtain ⟨_, -, rfl⟩ | ⟨-, -, rfl⟩ | ⟨-, hpc, u, hu, rfl⟩ := runCycle_cases h
  · exact hinv
  · exact ⟨hinv.mem, hinv.pc, hinv.stack⟩
  · obtain ⟨hmem, hpc, hstack⟩ := hrun _ u hu (by omega)
    exact ⟨by rwa [endOfCycle_mem], by rwa [endOfCycle_pc], by rwa [endOfCycle_stack]⟩

end

/-- Settles O50: every instruction keeps the invariant, so the cycle does. -/
theorem everyStepKeepsTheInvariant : Obligations.EveryStepKeepsTheInvariant :=
  fun _ _ hinv h => runCycle_keeps_inv (fun _ _ hu hpc => exec_keeps_inv hu hpc hinv) h hinv

/-! ### Host operations -/

section
variable {s : State}

theorem executeWith_keeps_inv {rand : Byte} {i : Instr} {t : State} (h : executeWith rand i s = .next t)
    (hpc : s.pc.toNat ≤ 4094) (hinv : Inv s) : Inv t := by
  obtain ⟨x, kk, -, rfl⟩ | hexec := executeWith_cases h
  · have hadvance : (s.setReg x (rand &&& kk)).advance.pc.toNat = (s.pc.toNat + 2) % 65536 := advances_advance _
    exact ⟨hinv.mem, by omega, hinv.stack⟩
  · exact exec_keeps_inv hexec hpc hinv

theorem load_keeps_inv (offset : Nat) (bytes : List Byte) (hinv : Inv s) : Inv (load offset bytes s).1 := by
  unfold load
  split
  · exact hinv
  · exact ⟨Memory.wf_writeBytes _ _ hinv.mem, hinv.pc, hinv.stack⟩

theorem perform_keeps_inv (o : HostOp) (hinv : Inv s) : Inv (perform o s).1 := by
  cases o with
  | init font => exact inv_initialise font s.draws
  | load offset bytes => exact load_keeps_inv offset bytes hinv
  | cycle rand =>
    obtain ⟨t, ht⟩ := cycleWith_total rand s
    rw [perform_cycle ht]
    exact runCycle_keeps_inv (fun _ _ hu hpc => executeWith_keeps_inv hu hpc hinv) ht hinv
  | keyDown | keyUp | fbRead | timerRead => exact ⟨hinv.mem, hinv.pc, hinv.stack⟩

end

/-- Settles O51: INIT establishes the invariant and every operation keeps it. -/
theorem reachableStatesMeetTheInvariant : Obligations.ReachableStatesMeetTheInvariant := by
  intro s hs
  induction hs with
  | init font draws => exact inv_initialise font draws
  | perform o s _ ih => exact perform_keeps_inv o ih

end Sys2Proof.Machine
end

section
/-! PROOFS. JP_V0, CALL and RET (41_control_flow.md R121, R123, R124), RND (42_load_alu.md R160) and the skips on a
key (45_keypad_timers.md R201, R202). -/

namespace Sys2Proof.Machine

/-! ### JP_V0 (R124) -/

theorem exec_jpV0 (nnn : BitVec 12) (s : State) :
    exec (.jpV0 nnn) s = .next (s.setPc (addressOf nnn + (s.reg 0).setWidth 16)) := rfl

/-- Settles O19: the two are added as 16-bit values, so only the sum wraps. -/
theorem jumpWithOffsetAddsV0 : Obligations.JumpWithOffsetAddsV0 := by
  refine ⟨encodedBy_maskF000 fun _ h => decode_familyB h, fun nnn => ?jump⟩
  case jump => simpa only [add_setWidth_toNat, addressOf_toNat] using jumpsTo_of_exec (exec_jpV0 nnn)

/-! ### CALL and RET (R121, R123) -/

section
variable (s : State)

theorem onlyChanges_setStack_setSp_setPc (stack : Vector Word 16) (sp : Fin 17) (pc : Word) :
    OnlyChanges [.stack, .sp, .pc] s (((s.setStack stack).setSp sp).setPc pc) := by
  intro p hp
  cases p with
  | stack | sp | pc => simp at hp
  | V | mem => intro _; rfl
  | _ => rfl

theorem onlyChanges_setSp_setPc (sp : Fin 17) (pc : Word) : OnlyChanges [.sp, .pc] s ((s.setSp sp).setPc pc) := by
  intro p hp
  cases p with
  | sp | pc => simp at hp
  | V | mem => intro _; rfl
  | _ => rfl

end

/-- Settles O20: below 16 the stack pointer is a slot, which is written with the address of the CALL. -/
theorem callPushesItsOwnAddress : Obligations.CallPushesItsOwnAddress := by
  refine ⟨encodedBy_maskF000 fun _ h => decode_family2 h, fun nnn s => ⟨fun hroom => ?pushes, exec_call_fault nnn⟩⟩
  case pushes =>
    have hsp : s.sp = (⟨s.sp.val, hroom⟩ : Fin 16).castSucc := rfl
    refine ⟨_, exec_call_ok nnn hsp, rfl, addressOf_toNat nnn, fun i => ?slots,
      onlyChanges_setStack_setSp_setPc s _ _ _⟩
    case slots => exact (Vector.getElem_set hroom i.isLt).trans (if_congr eq_comm rfl rfl)

/-- Settles O21: the slot below the stack pointer is read and kept. -/
theorem returnPopsAndAddsTwo : Obligations.ReturnPopsAndAddsTwo := by
  refine ⟨encodedBy_maskFFFF decode_ret, fun s => ⟨fun i hi => ?pops, exec_ret_fault⟩⟩
  case pops =>
    have hsp : s.sp = i.succ := Fin.ext hi
    exact ⟨_, exec_ret_ok hsp, rfl, BitVec.toNat_add _ _, onlyChanges_setSp_setPc s _ _⟩

/-- Settles O22: the slot that RET reads is the one that CALL wrote. -/
theorem returnResumesAfterItsCall : Obligations.ReturnResumesAfterItsCall := by
  intro nnn s t u hroom hcall hsp hstack
  obtain ⟨t', ht', htsp, -, hslots, -⟩ := (callPushesItsOwnAddress.2 nnn s).1 hroom
  obtain rfl : t' = t := Host.Outcome.next.inj (ht'.symm.trans hcall)
  obtain ⟨w, hw, hwsp, hwpc, hframe⟩ := (returnPopsAndAddsTwo.2 u).1 ⟨s.sp.val, hroom⟩ (hsp ▸ htsp)
  refine ⟨w, hw, ?resumes, Fin.ext hwsp, hframe⟩
  case resumes => rw [Advances, hwpc, hstack, hslots, if_pos rfl]

/-! ### RND (R160) -/

theorem exec_rnd (x : RegIx) (kk : Byte) (s : State) :
    exec (.rnd x kk) s = .next (s.setReg x (Config.rand s.draws &&& kk)).advance := rfl

/-- Settles O30: with the free byte and with a given one, RND is a write of one register. -/
theorem rndMasksAnyRandomByte : Obligations.RndMasksAnyRandomByte := by
  refine ⟨encodedBy_maskF000 fun _ h => decode_familyC h, fun x kk => ⟨?free, fun rand s => ?given⟩⟩
  case free => exact writesOneRegister_of_exec (exec_rnd x kk) fun s => BitVec.toNat_and _ _
  case given =>
    refine ⟨_, executeWith_rnd rand x kk s, ?value, ?others, advances_advance _, onlyChanges_setV_setPc s _ _⟩
    case value => rw [State.advance_reg, State.setReg_reg_self, BitVec.toNat_and]
    case others => exact fun _ hr => State.setReg_reg_of_ne s x _ hr

/-! ### SKP and SKNP (R201, R202) -/

section
variable {s : State} {x k : RegIx} (h : (s.reg x).toNat = k.val)
include h

theorem exec_skp_ok : exec (.skp x) s = .next (s.skipIf s.key[k]) := by
  have hk : (s.reg x).toNat < 16 := h ▸ k.isLt
  rw [exec_skp, withKeyIndex_ok hk, show (⟨_, hk⟩ : RegIx) = k from Fin.ext h]

theorem exec_sknp_ok : exec (.sknp x) s = .next (s.skipIf (!s.key[k])) := by
  have hk : (s.reg x).toNat < 16 := h ▸ k.isLt
  rw [exec_sknp, withKeyIndex_ok hk, show (⟨_, hk⟩ : RegIx) = k from Fin.ext h]

end

/-- Settles O41: an index below 16 is a key, and any other is the fault of its instruction. -/
theorem keySkipsTestTheIndexedKey : Obligations.KeySkipsTestTheIndexedKey := by
  refine ⟨encodedBy_familyE rfl fun _ h => decodeFamilyE_skp h, encodedBy_familyE rfl fun _ h => decodeFamilyE_sknp h,
    fun x s => ⟨fun k hk => ⟨?skp, ?sknp⟩, fun h => ⟨(OwnFault.skp x h).takesFault, (OwnFault.sknp x h).takesFault⟩⟩⟩
  case skp => exact ⟨_, exec_skp_ok hk, State.skipIf_pc_toNat s _, onlyChanges_skipIf s _⟩
  case sknp =>
    refine ⟨_, exec_sknp_ok hk, ?pc, onlyChanges_skipIf s _⟩
    case pc => rw [State.skipIf_pc_toNat]; cases s.key[k] <;> rfl

end Sys2Proof.Machine
end

section
/-! PROOFS. Blocks of memory: LD_B_VX, LD_MEM_VX and LD_VX_MEM (43_index_memory.md R174 to R176), LOAD
(46_host_operations.md R222, R223) and a placed word (log entry 4), and what a fetch reads of what they wrote
(20_memory.md R64). -/

namespace Sys2Proof.Machine

section
variable (s : State) (m : Memory)

theorem onlyChanges_setMem : OnlyChanges [.mem] s (s.setMem m) := by
  intro p hp
  cases p with
  | mem => simp at hp
  | V => intro _; rfl
  | _ => rfl

theorem onlyChanges_setMem_setPc (pc : Word) : OnlyChanges [.mem, .pc] s ((s.setMem m).setPc pc) := by
  intro p hp
  cases p with
  | mem | pc => simp at hp
  | V => intro _; rfl
  | _ => rfl

end

theorem Memory.read_writeBytes_outside (vs : List Byte) (m : Memory) {a k : Nat} (h : k < a ∨ a + vs.length ≤ k) :
    (m.writeBytes a vs).read k = m.read k :=
  h.elim (Memory.read_writeBytes_below vs m) (Memory.read_writeBytes_above vs m)

/-! ### What a range that fits does (R174, R175, R176) -/

section
variable {s : State} {x : RegIx}

theorem exec_ldBVx_ok (h : s.I.toNat + 2 ≤ 4095) : exec (.ldBVx x) s =
    .next (s.setMem (s.mem.writeBytes s.I.toNat (decimalDigits (s.reg x)))).advance := accessing_ok (.inr h)

variable (h : s.I.toNat + x.val ≤ 4095)
include h

theorem exec_ldMemVx_ok : exec (.ldMemVx x) s =
    .next (s.setMem (s.mem.writeBytes s.I.toNat (registersUpTo s x))).advance := accessing_ok (.inr h)

theorem exec_ldVxMem_ok : exec (.ldVxMem x) s = .next (s.setV (loadedRegisters s x)).advance :=
  accessing_ok (.inr h)

end

theorem decimalDigits_toNat (v : Byte) : (decimalDigits v)[0].toNat = v.toNat / 100 ∧
    (decimalDigits v)[1].toNat = v.toNat / 10 % 10 ∧ (decimalDigits v)[2].toNat = v.toNat % 10 := by
  have := v.isLt
  simp only [decimalDigits, List.getElem_cons_zero, List.getElem_cons_succ, BitVec.toNat_ofNat]
  omega

/-- Settles O32: three bytes are written, each digit small enough for its byte. -/
theorem decimalDigitsAreStored : Obligations.DecimalDigitsAreStored := by
  refine ⟨encodedBy_familyF rfl fun _ h => decodeFamilyF_ldBVx h,
    fun x s => ⟨fun hfits => ?stores, fun h => (OwnFault.ldBVx x h).takesFault⟩⟩
  case stores =>
    have hdigit (i : Fin 3) : (s.mem.writeBytes s.I.toNat (decimalDigits (s.reg x))).read (s.I.toNat + i.val) =
        (decimalDigits (s.reg x))[i.val] := Memory.read_writeBytes_inside _ _ i.isLt (by omega)
    obtain ⟨hhundreds, htens, hones⟩ := decimalDigits_toNat (s.reg x)
    refine ⟨_, exec_ldBVx_ok hfits, (congrArg BitVec.toNat (hdigit 0)).trans hhundreds,
      (congrArg BitVec.toNat (hdigit 1)).trans htens, (congrArg BitVec.toNat (hdigit 2)).trans hones,
      fun a ha => Memory.read_writeBytes_outside _ _ ha, advances_advance _, onlyChanges_setMem_setPc s _ _⟩

/-- Settles O33: byte `r` of the block is `V[r]`. -/
theorem registerBlockIsStored : Obligations.RegisterBlockIsStored := by
  refine ⟨encodedBy_familyF rfl fun _ h => decodeFamilyF_ldMemVx h,
    fun x s => ⟨fun hfits => ?stores, fun h => (OwnFault.ldMemVx x h).takesFault⟩⟩
  case stores =>
    have hlength := registersUpTo_length s x
    refine ⟨_, exec_ldMemVx_ok hfits, fun r hr => ?stored,
      fun a ha => Memory.read_writeBytes_outside _ _ (by omega), advances_advance _, onlyChanges_setMem_setPc s _ _⟩
    case stored =>
      have hr : r.val ≤ x.val := hr
      have hr' : r.val < (registersUpTo s x).length := by omega
      rw [State.advance_mem, State.setMem_mem, Memory.read_writeBytes_inside _ _ hr' (by omega),
        registersUpTo_getElem s x r hr']

/-- Settles O34: the loaded register file, register by register. -/
theorem registerBlockIsLoaded : Obligations.RegisterBlockIsLoaded := by
  refine ⟨encodedBy_familyF rfl fun _ h => decodeFamilyF_ldVxMem h,
    fun x s => ⟨fun hfits => ?loads, fun h => (OwnFault.ldVxMem x h).takesFault⟩⟩
  case loads =>
    refine ⟨_, exec_ldVxMem_ok hfits, fun r hr => ?loaded, fun r hr => ?kept, advances_setV s _,
      onlyChanges_setV_setPc s _ _⟩
    case loaded => rw [setV_loadedRegisters_reg, if_pos hr]
    case kept => rw [setV_loadedRegisters_reg, if_neg (not_le.mpr hr)]

/-- Settles O35: the load reads the addresses that the store wrote, from the same `I`. -/
theorem storeThenLoadRecoversRegisters : Obligations.StoreThenLoadRecoversRegisters := by
  intro x s t v hfits hstore
  obtain ⟨t', ht', hstored, -, -, hframe⟩ := (registerBlockIsStored.2 x s).1 hfits
  obtain rfl : t' = t := Host.Outcome.next.inj (ht'.symm.trans hstore)
  have hI : t'.I = s.I := hframe .I (by decide)
  obtain ⟨w, hw, hloaded, hkept, -, hwframe⟩ := (registerBlockIsLoaded.2 x { t' with V := v }).1 (by rwa [hI])
  refine ⟨w, hw, (hwframe .I (by decide)).trans hI, fun r hr => ?recovered, hkept⟩
  case recovered => rw [hloaded r hr, ← hstored r hr, ← hI]

/-! ### LOAD (R222, R223) -/

theorem load_ok {offset : Nat} {bytes : List Byte} (hlow : 0x200 ≤ offset) (hhigh : offset + bytes.length ≤ 4096)
    (s : State) : load offset bytes s = (s.setMem (s.mem.writeBytes offset bytes), .ok) := if_neg (by omega)

/-- Settles O52: LOAD is a block write of memory, or nothing. -/
theorem loadWritesExactlyItsBytes : Obligations.LoadWritesExactlyItsBytes := by
  refine fun offset bytes s => ⟨fun hlow hhigh => ?fits, fun h => if_pos h⟩
  case fits =>
    rw [load_ok hlow hhigh]
    exact ⟨rfl, fun i => Memory.read_writeBytes_inside _ _ i.isLt (by omega),
      fun a ha => Memory.read_writeBytes_outside _ _ ha, onlyChanges_setMem s _⟩

/-! ### Fetching what was written (R52, R64) -/

theorem fetch_of_writeBytes {s : State} {m : Memory} {hi lo : Byte} {rest : List Byte}
    (hpc : s.pc.toNat + 1 < 4096) (hmem : s.mem = m.writeBytes s.pc.toNat (hi :: lo :: rest)) :
    fetch s = some (wordOfBytes hi lo) := by
  have hhi : s.mem.read s.pc.toNat = hi := by
    rw [hmem]; exact Memory.read_writeBytes_inside (i := 0) _ m (by simp) (by omega)
  have hlo : s.mem.read (s.pc.toNat + 1) = lo := by
    rw [hmem]; exact Memory.read_writeBytes_inside (i := 1) _ m (by simp) hpc
  rw [fetch_ok hpc, hhi, hlo]

/-- Settles O36: two neighbouring registers are stored at neighbouring addresses; LOAD writes the bytes as they
are. -/
theorem storedBytesAreFetched : Obligations.StoredBytesAreFetched := by
  refine ⟨?stored, fun s hi lo rest hlow hhigh => ?loaded⟩
  case stored =>
    intro x s t i j p hfits hij hj hp hexec
    obtain ⟨t', ht', hstored, -⟩ := (registerBlockIsStored.2 x s).1 hfits
    obtain rfl : t' = t := Host.Outcome.next.inj (ht'.symm.trans hexec)
    have hjx : j.val ≤ x.val := hj
    have hi : i ≤ x := Fin.le_def.mpr (by omega)
    have hsucc : p.toNat + 1 = s.I.toNat + j.val := by omega
    have hpc : p.toNat + 1 < 4096 := by omega
    rw [fetch_ok (s := { t' with pc := p }) hpc, hp, hstored i hi, ← hp, hsucc, hstored j hj]
  case loaded =>
    rw [load_ok hlow (by simp only [List.length_cons]; omega)]
    exact fetch_of_writeBytes (s := s.setMem _) (by show s.pc.toNat + 1 < 4096; omega) rfl

/-! ### A placed word (log entry 4) -/

theorem tableWord_of_toNat (op : Word) : tableWord 16 op.toNat = op := by
  show BitVec.ofNat 16 (op.toNat % 65536) = op
  rw [Nat.mod_eq_of_lt (toNat_lt op), BitVec.ofNat_toNat, BitVec.setWidth_eq]

theorem decodeTableWord_of_toNat (op : Word) : decodeTableWord 16 op.toNat = some (decode op) := by
  simp [decodeTableWord, tableWord_of_toNat, wordBytes, decodeBytes]

section
variable (s : State) (op : Word)

/-- Where the machine could fetch already, `pc` stays (log entry 4). -/
theorem withFetchWord_of_fetchable (hpc : s.pc.toNat + 1 < 4096) : s.withFetchWord 16 op.toNat =
    { s with fault := none, mem := s.mem.writeBytes s.pc.toNat (wordBytes op) } := by
  rw [State.withFetchWord, tableWord_of_toNat, if_pos hpc]

theorem withFetchWord_pc : (s.withFetchWord 16 op.toNat).pc.toNat + 1 < 4096 := by
  show (if s.pc.toNat + 1 < 4096 then s.pc else 0x200).toNat + 1 < 4096
  split
  · assumption
  · decide

theorem fetch_withFetchWord : fetch (s.withFetchWord 16 op.toNat) = some op := by
  have hmem : (s.withFetchWord 16 op.toNat).mem =
      s.mem.writeBytes (s.withFetchWord 16 op.toNat).pc.toNat (wordBytes op) :=
    congrArg (fun w => s.mem.writeBytes _ (wordBytes w)) (tableWord_of_toNat op)
  rw [fetch_of_writeBytes (withFetchWord_pc s op) hmem, wordOfBytes_high_low]

end

/-- Settles O56: the word's two bytes are a block at `pc`, and `pc` is one that fetches. -/
theorem placedWordIsFetched : Obligations.PlacedWordIsFetched := by
  refine fun s op => ⟨fetch_withFetchWord s op, rfl, decodeTableWord_of_toNat op, fun hfault hpc => ?frame⟩
  case frame =>
    have hplaced : s.withFetchWord 16 op.toNat = s.setMem (s.mem.writeBytes s.pc.toNat (wordBytes op)) := by
      rw [withFetchWord_of_fetchable s op hpc, ← hfault]; rfl
    rw [hplaced]
    refine ⟨onlyChanges_setMem s _, fun a hhi hlo => Memory.read_writeBytes_outside _ _ ?outside⟩
    case outside => show a < s.pc.toNat ∨ s.pc.toNat + 2 ≤ a; omega

end Sys2Proof.Machine
end

section
/-! PROOFS. DRW (44_display.md R192 to R196): the cells a sprite lands on in numbers, one draw, and the same draw
twice. -/

namespace Sys2Proof.Machine

/-! ### Target cells (R193, R194) -/

section
variable (m : Memory) (base vx vy : Nat)

theorem spriteTargets_iff {n : Nat} {row : Fin 32} {col : Fin 64} :
    (row, col) ∈ spriteTargets m base vx vy n ↔ ∃ r c : Nat, r < n ∧ c < 8 ∧
      (m.read (base + r)).toNat.testBit (7 - c) = true ∧ row.val = (vy + r) % 32 ∧ col.val = (vx + c) % 64 := by
  simp only [mem_spriteTargets, spriteBit, BitVec.testBit_toNat]

variable {n : Nat} (hn : n ≤ 32) (fb : Framebuffer)
include hn

/-- A second draw toggles the same cells back (R196). -/
theorem drawSprite_twice_fb :
    (drawSprite m base vx vy n (drawSprite m base vx vy n fb).1).1 = fb := by
  refine Framebuffer.ext_cell fun r c => ?_
  rw [drawSprite_cell m base vx vy hn, drawSprite_cell m base vx vy hn, Bool.xor_assoc, Bool.xor_self,
    Bool.xor_false]

/-- A target is on before the second draw exactly if it was off before the first (R196). -/
theorem drawSprite_twice_hit :
    (drawSprite m base vx vy n (drawSprite m base vx vy n fb).1).2 =
      decide (∃ p ∈ spriteTargets m base vx vy n, fb.cell p.1 p.2 = false) := by
  rw [drawSprite_hit m base vx vy hn, decide_eq_decide]
  refine exists_congr fun p => and_congr_right fun hp => ?_
  rw [drawSprite_cell m base vx vy hn, decide_eq_true hp, Bool.xor_true, Bool.not_eq_true']

end

/-! ### Executing DRW (R192, R195) -/

/-- The draw of DRW from a state onto a framebuffer: the framebuffer after it, and the collision. -/
def drawFrom (x y : RegIx) (n : Fin 16) (s : State) (fb : Framebuffer) : Framebuffer × Bool :=
  drawSprite s.mem s.I.toNat (s.reg x).toNat (s.reg y).toNat n.val fb

theorem onlyChanges_setFb_setV_setPc (s : State) (fb : Framebuffer) (v : Vector Byte 16) (pc : Word) :
    OnlyChanges [.V, .pc, .fb] s (((s.setFb fb).setV v).setPc pc) := by
  intro p hp
  cases p with
  | V | pc | fb => simp at hp
  | mem => intro _; rfl
  | _ => rfl

theorem exec_drw_ok {x y : RegIx} {n : Fin 16} {s : State} (h : n.val = 0 ∨ s.I.toNat + n.val - 1 ≤ 4095) :
    exec (.drw x y n) s = .next
      ((s.setFb (drawFrom x y n s s.fb).1).setReg VF (flagByte (drawFrom x y n s s.fb).2)).advance :=
  accessing_ok h

/-- Settles O39: the loops toggle each target once, and the collision is that some target was on. -/
theorem drawTogglesExactlyItsTargets : Obligations.DrawTogglesExactlyItsTargets := by
  refine ⟨encodedBy_maskF000 fun _ h => decode_familyD h, fun x y n s => ⟨fun hfits => ?draws, fun hn hlast =>
    (OwnFault.drw x y n (Nat.one_le_iff_ne_zero.mpr hn) hlast).takesFault⟩⟩
  case draws =>
    have hn : n.val ≤ 32 := by omega
    have hcell := drawSprite_cell s.mem s.I.toNat (s.reg x).toNat (s.reg y).toNat hn s.fb
    have hhit := drawSprite_hit s.mem s.I.toNat (s.reg x).toNat (s.reg y).toNat hn s.fb
    refine ⟨_, exec_drw_ok hfits, fun row col h => ?toggled, fun row col h => ?kept, fun h => ?collision,
      fun h => ?noCollision, fun r hr => State.setReg_reg_of_ne _ _ _ hr, advances_advance _,
      onlyChanges_setFb_setV_setPc s _ _ _⟩
    case toggled =>
      refine (hcell row col).trans ?_
      rw [decide_eq_true ((spriteTargets_iff ..).mpr h), Bool.xor_true]
    case kept =>
      refine (hcell row col).trans ?_
      rw [decide_eq_false (mt (spriteTargets_iff ..).mp h), Bool.xor_false]
    case collision =>
      obtain ⟨row, col, htarget, hon⟩ := h
      rw [State.advance_reg, State.setReg_reg_self, drawFrom, hhit,
        decide_eq_true ⟨(row, col), (spriteTargets_iff ..).mpr htarget, hon⟩]
      rfl
    case noCollision =>
      rw [State.advance_reg, State.setReg_reg_self, drawFrom, hhit, decide_eq_false]
      · rfl
      · rintro ⟨⟨row, col⟩, htarget, hon⟩
        exact Bool.false_ne_true ((h row col ((spriteTargets_iff ..).mp htarget)).symm.trans hon)

/-- What DRW writes is nothing its draw reads, unless VF is an operand. -/
theorem drawFrom_drawn {x y : RegIx} (hx : x ≠ VF) (hy : y ≠ VF) (n : Fin 16) (s : State) (fb fb' : Framebuffer)
    (flag : Byte) : drawFrom x y n ((s.setFb fb).setReg VF flag).advance fb' = drawFrom x y n s fb' := by
  simp only [drawFrom, State.advance_mem, State.advance_I, State.advance_reg, State.setReg_mem, State.setReg_I,
    State.setReg_reg_of_ne _ _ _ hx, State.setReg_reg_of_ne _ _ _ hy, State.setFb_mem, State.setFb_I, State.setFb_reg]

theorem flagByte_decide_toNat_eq_one (p : Prop) [Decidable p] : (flagByte (decide p)).toNat = 1 ↔ p := by
  by_cases h : p <;> simp [h]

/-- Settles O40: with its registers, `I` and memory as before, the second draw has the same targets. -/
theorem drawingTwiceRestoresTheFramebuffer : Obligations.DrawingTwiceRestoresTheFramebuffer := by
  intro x y n s t hx hy hfits hexec
  have hn : n.val ≤ 32 := by omega
  rw [exec_drw_ok hfits] at hexec
  obtain rfl := Host.Outcome.next.inj hexec
  refine ⟨_, exec_drw_ok hfits, ?restored, ?collision⟩
  case restored =>
    rw [drawFrom_drawn hx hy]
    exact drawSprite_twice_fb _ _ _ _ hn s.fb
  case collision =>
    rw [drawFrom_drawn hx hy, State.advance_reg, State.setReg_reg_self]
    simp only [State.advance_fb, State.setReg_fb, State.setFb_fb, drawFrom]
    rw [drawSprite_twice_hit _ _ _ _ hn, flagByte_decide_toNat_eq_one]
    constructor
    · rintro ⟨⟨row, col⟩, htarget, hoff⟩
      obtain ⟨r, c, hr, hc, hbit, hrow, hcol⟩ := (spriteTargets_iff ..).mp htarget
      exact ⟨row, col, r, c, hr, hc, hbit, hrow, hcol, hoff⟩
    · rintro ⟨row, col, r, c, hr, hc, hbit, hrow, hcol, hoff⟩
      exact ⟨(row, col), (spriteTargets_iff ..).mpr ⟨r, c, hr, hc, hbit, hrow, hcol⟩, hoff⟩

end Sys2Proof.Machine
end

section
/-! PROOFS. The key wait over many cycles (45_keypad_timers.md R203, 70_reset_and_hazards.md R285, R290), that no
instruction reads ST (10_state.md R37, 45_keypad_timers.md R206), and what the host's operations do to a faulted
machine (46_host_operations.md R229). -/

namespace Sys2Proof.Machine

/-! ### Waiting for a key (R203) -/

theorem OnlyChanges.refl (parts : List Part) (s : State) : OnlyChanges parts s s := by
  intro p _
  cases p with
  | V | mem => intro _; rfl
  | _ => rfl

theorem OnlyChanges.trans {parts : List Part} {s t u : State} (hst : OnlyChanges parts s t)
    (htu : OnlyChanges parts t u) : OnlyChanges parts s u := by
  intro p hp
  have h := hst p hp
  have h' := htu p hp
  cases p with
  | V | mem => exact fun a => (h' a).trans (h a)
  | _ => exact h'.trans h

/-- Settles O43, by induction on the number of cycles: the tick leaves what the next cycle runs on. -/
theorem waitingMachineOnlyTicks : Obligations.WaitingMachineOnlyTicks := by
  intro x s n hruns hkeys
  induction n generalizing s with
  | zero => exact ⟨s, rfl, rfl, rfl, OnlyChanges.refl _ s⟩
  | succ n ih =>
    have hstep : step s = .next (nextDraw (tick s)) := step_of_runs hruns (exec_ldVxK_waits x hkeys) rfl
    obtain ⟨t, hrun, hDT, hST, hframe⟩ := ih (nextDraw (tick s)) hruns hkeys
    rw [nextDraw_tick_DT_toNat] at hDT
    rw [nextDraw_tick_ST_toNat] at hST
    exact ⟨t, (core_run_of_step hstep).trans hrun, by omega, by omega, (onlyChanges_nextDraw_tick s).trans hframe⟩

/-! ### No instruction reads ST (R206) -/

section
variable {s t : State} (v : Byte)

theorem accessing_setST {count : Nat} {done : State} (h : accessing count s done = .next t) :
    accessing count (s.setST v) (done.setST v) = .next (t.setST v) := by
  obtain ⟨hfits, rfl⟩ | ⟨hcount, hlast, rfl⟩ := accessing_cases h
  · exact accessing_ok hfits
  · exact accessing_fault hcount hlast

theorem exec_setST {i : Instr} (hi : ∀ x, i ≠ .ldStVx x) (h : exec i s = .next t) :
    exec i (s.setST v) = .next (t.setST v) := by
  cases i with
  | ldStVx x => exact absurd rfl (hi x)
  | ret =>
    obtain ⟨h0, rfl⟩ | ⟨i, hsp, rfl⟩ := exec_ret_cases h
    · exact exec_ret_fault (s := s.setST v) h0
    · exact exec_ret_ok (s := s.setST v) hsp
  | call nnn =>
    obtain ⟨h16, rfl⟩ | ⟨i, hsp, rfl⟩ := exec_call_cases nnn h
    · exact exec_call_fault (s := s.setST v) nnn h16
    · exact exec_call_ok (s := s.setST v) nnn hsp
  | ldVxK x =>
    obtain ⟨k, ⟨hpressed, hleast⟩, rfl⟩ | ⟨hnone, rfl⟩ := exec_ldVxK_cases x h
    · exact exec_ldVxK_pressed (s := s.setST v) x hpressed hleast
    · exact exec_ldVxK_waits (s := State.setST _ v) x hnone
  | skp x =>
    rw [exec_skp] at h
    obtain ⟨hk, rfl⟩ | ⟨hk, rfl⟩ := withKeyIndex_cases h
    · exact exec_skp_ok (s := s.setST v) (k := ⟨_, hk⟩) rfl
    · exact (OwnFault.skp (s := s.setST v) x hk).takesFault
  | sknp x =>
    rw [exec_sknp] at h
    obtain ⟨hk, rfl⟩ | ⟨hk, rfl⟩ := withKeyIndex_cases h
    · exact exec_sknp_ok (s := s.setST v) (k := ⟨_, hk⟩) rfl
    · exact (OwnFault.sknp (s := s.setST v) x hk).takesFault
  | drw | ldBVx | ldMemVx | ldVxMem => exact accessing_setST v h
  | _ => cases h; rfl

end

/-- Settles O45: each instruction ends alike from two states that differ in ST, and LD_ST_VX writes it. -/
theorem noInstructionReadsTheSoundTimer : Obligations.NoInstructionReadsTheSoundTimer :=
  fun _ v => ⟨fun _ => rfl, fun _ _ hi h => exec_setST v hi h⟩

/-! ### Host operations on a faulted machine (R229) -/

/-- Apart from INIT and CYCLE an operation neither reads nor writes the latch. -/
theorem perform_setFault {o : HostOp} (hinit : ∀ font, o ≠ .init font) (hcycle : ∀ rand, o ≠ .cycle rand) (s : State)
    (g : Option Fault) : perform o (s.setFault g) = ((perform o s).1.setFault g, (perform o s).2) := by
  cases o with
  | init font => exact absurd rfl (hinit font)
  | cycle rand => exact absurd rfl (hcycle rand)
  | load offset bytes =>
    simp only [perform, load]
    split
    · rfl
    · rfl
  | keyDown | keyUp | fbRead | timerRead => rfl

/-- Settles O55: CYCLE answers the faulted machine, and no operation left reads or writes the latch. -/
theorem onlyInitClearsAFault : Obligations.OnlyInitClearsAFault := by
  intro s f o hf hinit
  by_cases hcycle : ∃ rand, o = .cycle rand
  · obtain ⟨rand, rfl⟩ := hcycle
    have hsame := (faultedMachineIsInert s f rand hf).2
    rw [hsame]
    exact ⟨hf, fun _ _ => rfl, fun hne => absurd rfl (hne rand)⟩
  · have hne : ∀ rand, o ≠ .cycle rand := fun rand e => hcycle ⟨rand, e⟩
    have hs : s = ({ s with fault := none } : State).setFault (some f) := (with_fault_of_fault hf).symm
    have hperform := perform_setFault hinit hne { s with fault := none } (some f)
    rw [← hs] at hperform
    exact ⟨congrArg (fun r => r.1.fault) hperform, fun rand e => absurd e (hne rand), fun _ => hperform⟩

end Sys2Proof.Machine
end
